-- ==== Sys2Proof/Config.lean ====
section
/-! DEFINITION. What an implementation fixes: the parameters of rule R4 (spec/00_scope.md) and the one value the spec
leaves open, the contents of the operand stack at reset (`STACK_INIT`, rule R24, decision D26), as an opaque constant. -/

namespace Sys2Proof.Config

/-- `NREGS`: the number of registers (R4, R11). -/
abbrev nregs : Nat := 12

/-- `STACK_CAP`: the number of operand-stack slots (R4, R18). -/
abbrev stackCap : Nat := 256

/-- `NOPS`: the number of defined opcodes (R4, R52). -/
abbrev nops : Nat := 16

/-- `MAX_OPERANDS`: the largest operand width of an opcode (R4, R53). -/
abbrev maxOperands : Nat := 3

/-- `WORD_BITS`: the width of every register, stack slot and program word (R4, R6, decision D1; log entry 1). -/
abbrev wordBits : Nat := 32

/-- The greatest `PROG_LEN` the spec admits, 2^31 − 1 (R4, decision D19). -/
abbrev progLenMax : Nat := 2147483647

/-- `STACK_INIT`: the word that operand-stack slot `slot` holds before anything has been written to it after a reset.
The spec leaves it open: "unspecified: `STACK_INIT`, any 256 words, fixed at reset" (R24, D26). A FREE VALUE: the
constant has no body, so no proof can know the word. `draw` tells one reset from the next (log entry 2). -/
opaque stackInit (draw slot : Nat) : BitVec 32

end Sys2Proof.Config
end

