-- ==== Sys2Proof/Word.lean ====
section
/-! DEFINITION. The word (rule R6) and the reduction of a mathematical integer to a word (rule R7). -/

namespace Sys2Proof

/-- A word: a signed two's-complement integer of 32 bits (R6). Its signed value is `BitVec.toInt`. -/
abbrev Word := BitVec 32

/-- `WORD_MIN` (R4). -/
abbrev wordMin : Int := -2147483648

/-- `WORD_MAX` (R4). -/
abbrev wordMax : Int := 2147483647

/-- `wrap(v)`: the unique word congruent to `v` modulo 2^32 (R7). -/
def wrap (v : Int) : Word := BitVec.ofInt 32 v

end Sys2Proof
end

