-- ==== Sys2Proof/Syntax.lean ====
section
/-! DEFINITION. The instruction set as syntax: the registers, the 16 opcodes, and `Instr` with one constructor for each
row of spec/opcode_table.json, its operands in the order of the operand words (rules R51, R52, R61). -/

namespace Sys2Proof

/-- The 12 registers, in the order of rule R11. IP and SP are ordinary members of the file (R12, R14, R16). -/
inductive Reg where
  | a | b | c | d | e | f | g | h | ex | exa | ip | sp
deriving DecidableEq, Repr

/-- The 16 opcodes, in the order of rule R52. -/
inductive Opcode where
  | hlt | psh | pop | add | mul | div | sub | slt | mov | set | log | ifEq | ifNe | gld | gpt | nop
deriving DecidableEq, Repr

/-- The UBI instruction set (R1, R51, R52). A register operand is a `Reg`, since a decoded instruction names one of the
closed set of 12 (R54); immediates and branch targets are whole words, every value legal as an encoding (R55, R56). -/
inductive Instr where
  /-- HLT: halt (R150). -/
  | hlt
  /-- PSH val: push an immediate (R90). -/
  | psh (val : Word)
  /-- POP: pop and discard (R91). -/
  | pop
  /-- ADD: add the two top stack words (R101). -/
  | add
  /-- MUL: multiply the two top stack words (R102). -/
  | mul
  /-- DIV: divide the second-from-top word by the top word (R103). -/
  | div
  /-- SUB: subtract the top word from the second-from-top word (R104). -/
  | sub
  /-- SLT: 1 if second-from-top < top, else 0 (R105). -/
  | slt
  /-- MOV rsrc,rdst: copy a register, source first (R120). -/
  | mov (rsrc rdst : Reg)
  /-- SET rdst,val: load an immediate into a register (R121). -/
  | set (rdst : Reg) (val : Word)
  /-- LOG rm: output a register's value (R151). -/
  | log (rm : Reg)
  /-- IF rm,val,target: branch when a register equals an immediate (R140). -/
  | ifEq (rm : Reg) (val target : Word)
  /-- IFN rm,val,target: branch when a register differs from an immediate (R141). -/
  | ifNe (rm : Reg) (val target : Word)
  /-- GLD rm: push a register (R122). -/
  | gld (rm : Reg)
  /-- GPT rm: copy the top of the stack into a register without popping (R123). -/
  | gpt (rm : Reg)
  /-- NOP: no operation but its notice (R152). -/
  | nop
deriving DecidableEq, Repr

/-- Why the decoder rejects words: the three decode checks of rules R57, R58 and R54, in that order (R60). -/
inductive DecodeError where
  /-- The opcode word is not in 0..15 (R57). -/
  | unknownOpcode
  /-- An operand word would lie at or beyond the end of the program (R58). -/
  | truncatedOperand
  /-- A register operand word is outside 0..11 (R54). -/
  | invalidRegister
deriving DecidableEq, Repr

end Sys2Proof
end

