-- ==== Sys2Proof/WellFormed.lean ====
section
/-! DEFINITION. Well-formedness checks. A register operand cannot be ill formed once decoded (`Reg` is closed; the raw
word is checked by the decoder, rule R54) and every immediate is legal (R55). What is left to check is a branch target
against the program length (R56), the program length itself (R4, R192), and whether an instruction of a given operand
width fits at an index (R58). An instruction that fails the first check is not rejected by the machine: it faults when
the branch is taken (R142). -/

namespace Sys2Proof

/-- R56: a branch target "is legal when 0 ≤ `target` < `PROG_LEN`". -/
def targetLegal (progLen : Nat) (target : Word) : Bool :=
  decide (0 ≤ target.toInt ∧ target.toInt < progLen)

/-- R4, D19: 0 ≤ `PROG_LEN` ≤ 2^31 − 1. -/
def progLenLegal (progLen : Nat) : Bool := decide (progLen ≤ Config.progLenMax)

/-- R58: an opcode of operand width `w` at index `p` has all its operand words inside the program. -/
def operandsFit (progLen p w : Nat) : Bool := decide (p + w < progLen)

/-- An instruction's operands are legal in a program of `progLen` words: a branch's target is inside it (R56, R57). -/
def Instr.wellFormed (progLen : Nat) : Instr → Bool
  | .hlt => true
  | .psh _ => true
  | .pop => true
  | .add => true
  | .mul => true
  | .div => true
  | .sub => true
  | .slt => true
  | .mov _ _ => true
  | .set _ _ => true
  | .log _ => true
  | .ifEq _ _ target => targetLegal progLen target
  | .ifNe _ _ target => targetLegal progLen target
  | .gld _ => true
  | .gpt _ => true
  | .nop => true

end Sys2Proof
end

