-- ==== Sys2Proof/Decode.lean ====
section
/-! DEFINITION. The decoder and the encoder: the opcode map (rule R52), operand widths (R53), register numbers (R11,
R54), and the decode checks in the order of rule R60. Both numberings stand here as one table each (decisions D4, D5). -/

namespace Sys2Proof

/-- The opcodes in table order; `opcodeNumber` numbers them (R52). -/
def opcodes : List Opcode :=
  [.hlt, .psh, .pop, .add, .mul, .div, .sub, .slt, .mov, .set, .log, .ifEq, .ifNe, .gld, .gpt, .nop]

/-- R52: the value of an opcode word (decision D4). -/
def opcodeNumber : Opcode → Nat
  | .hlt => 0
  | .psh => 1
  | .pop => 2
  | .add => 3
  | .mul => 4
  | .div => 5
  | .sub => 6
  | .slt => 7
  | .mov => 8
  | .set => 9
  | .log => 10
  | .ifEq => 11
  | .ifNe => 12
  | .gld => 13
  | .gpt => 14
  | .nop => 15

/-- The opcode word: the whole 32-bit word holds the opcode's number (R51, R52). -/
def opcodeWord (o : Opcode) : Word := BitVec.ofNat 32 (opcodeNumber o)

/-- The match "is on the whole word" (R52); `none` for every word not in 0..15 (R57). -/
def opcodeOf (w : Word) : Option Opcode := opcodes.find? (fun o => decide (opcodeWord o = w))

/-- R53: how many operand words follow the opcode word. -/
def width : Opcode → Nat
  | .hlt => 0
  | .psh => 1
  | .pop => 0
  | .add => 0
  | .mul => 0
  | .div => 0
  | .sub => 0
  | .slt => 0
  | .mov => 2
  | .set => 2
  | .log => 1
  | .ifEq => 3
  | .ifNe => 3
  | .gld => 1
  | .gpt => 1
  | .nop => 0

/-- The registers in the order of rule R11. -/
def regs : List Reg := [.a, .b, .c, .d, .e, .f, .g, .h, .ex, .exa, .ip, .sp]

/-- R11: the index of a register (decision D5). -/
def regNumber : Reg → Nat
  | .a => 0
  | .b => 1
  | .c => 2
  | .d => 3
  | .e => 4
  | .f => 5
  | .g => 6
  | .h => 7
  | .ex => 8
  | .exa => 9
  | .ip => 10
  | .sp => 11

/-- The operand word that names a register (R54). -/
def regWord (r : Reg) : Word := BitVec.ofNat 32 (regNumber r)

/-- R54: the register an operand word names; `none` for a word outside 0..11. -/
def regOf (w : Word) : Option Reg := regs.find? (fun r => decide (regWord r = w))

/-- R54, R72: a register operand, checked. -/
def regOperand (w : Word) : Except DecodeError Reg :=
  match regOf w with
  | some r => .ok r
  | none => .error .invalidRegister

/-- The operands of an opcode, read from its operand words `o1 o2 o3` (R51), its register operands checked in word
order (R54, R60). Only the first `width o` of the words are used. -/
def decodeOperands (o : Opcode) (o1 o2 o3 : Word) : Except DecodeError Instr :=
  match o with
  | .hlt => .ok .hlt
  | .psh => .ok (.psh o1)
  | .pop => .ok .pop
  | .add => .ok .add
  | .mul => .ok .mul
  | .div => .ok .div
  | .sub => .ok .sub
  | .slt => .ok .slt
  | .mov => do
      let rsrc ← regOperand o1
      let rdst ← regOperand o2
      return .mov rsrc rdst
  | .set => do
      let rdst ← regOperand o1
      return .set rdst o2
  | .log => do
      let rm ← regOperand o1
      return .log rm
  | .ifEq => do
      let rm ← regOperand o1
      return .ifEq rm o2 o3
  | .ifNe => do
      let rm ← regOperand o1
      return .ifNe rm o2 o3
  | .gld => do
      let rm ← regOperand o1
      return .gld rm
  | .gpt => do
      let rm ← regOperand o1
      return .gpt rm
  | .nop => .ok .nop

/-- R72: the decode stage. `op` is the opcode word and `rest` the words of the program that follow it. The checks come
in the order of R60: the opcode, then the operand words' presence, then the register operands. -/
def decode (op : Word) (rest : List Word) : Except DecodeError Instr :=
  match opcodeOf op with
  | none => .error .unknownOpcode
  | some o =>
    if rest.length < width o then .error .truncatedOperand
    else decodeOperands o (rest.getD 0 0) (rest.getD 1 0) (rest.getD 2 0)

/-- The opcode that selects an instruction. -/
def Instr.opcode : Instr → Opcode
  | .hlt => .hlt
  | .psh _ => .psh
  | .pop => .pop
  | .add => .add
  | .mul => .mul
  | .div => .div
  | .sub => .sub
  | .slt => .slt
  | .mov _ _ => .mov
  | .set _ _ => .set
  | .log _ => .log
  | .ifEq _ _ _ => .ifEq
  | .ifNe _ _ _ => .ifNe
  | .gld _ => .gld
  | .gpt _ => .gpt
  | .nop => .nop

/-- The operand words of an instruction in program order (R51). -/
def Instr.operandWords : Instr → List Word
  | .hlt => []
  | .psh val => [val]
  | .pop => []
  | .add => []
  | .mul => []
  | .div => []
  | .sub => []
  | .slt => []
  | .mov rsrc rdst => [regWord rsrc, regWord rdst]
  | .set rdst val => [regWord rdst, val]
  | .log rm => [regWord rm]
  | .ifEq rm val target => [regWord rm, val, target]
  | .ifNe rm val target => [regWord rm, val, target]
  | .gld rm => [regWord rm]
  | .gpt rm => [regWord rm]
  | .nop => []

/-- The words of an instruction: the opcode word, then its operand words (R50, R51). -/
def encode (i : Instr) : List Word := opcodeWord i.opcode :: i.operandWords

/-- The words of an instruction whose bits are `w`, numbered as spec/opcode_table.json numbers them: word k is bits
32k+31..32k. Every bit at or above `nbits` is 0; four words is the longest instruction (R50). -/
def tableWords (nbits w : Nat) : List Word :=
  let bits := w % 2 ^ nbits
  [BitVec.ofNat 32 bits, BitVec.ofNat 32 (bits >>> 32), BitVec.ofNat 32 (bits >>> 64), BitVec.ofNat 32 (bits >>> 96)]

/-- The instruction the decoder reads from an instruction whose bits are `w` (see `tableWords`). -/
def decodeTableWord (nbits w : Nat) : Option Instr :=
  match tableWords nbits w with
  | [] => none
  | op :: rest => (decode op rest).toOption

end Sys2Proof
end

