-- ==== Sys2Proof/Machine/State.lean ====
section
/-! DEFINITION. The complete state of the engine (rule R10) with the program it runs (R4, R23), the reasons a step can
stop, and the state after reset (R24, R190). -/

namespace Sys2Proof.Machine

/-- The state of the Execution Loop (R19). The last three are terminal (R76). -/
inductive Status where
  | running | halted | exhausted | faulted
deriving DecidableEq, Repr

/-- The seven fault causes of rule R160. -/
inductive FaultCause where
  /-- Decode of a word not in 0..15 (R162). -/
  | unknownOpcode
  /-- A stack slot index above 255 would be used (R163). -/
  | stackOverflow
  /-- A stack slot index below 0 would be used (R164). -/
  | stackUnderflow
  /-- DIV with a zero divisor (R165). -/
  | divisionByZero
  /-- A taken branch's target is outside the program, or IP is negative at fetch (R166). -/
  | outOfRangeJump
  /-- An operand word would lie at or beyond `PROG_LEN` (R167). -/
  | truncatedOperand
  /-- A register operand word is outside 0..11 (R168). -/
  | invalidRegister
deriving DecidableEq, Repr

/-- The operator of an arithmetic event: `+`, `*`, `/` or `-` (R22). -/
inductive ArithSym where
  | plus | times | divide | minus
deriving DecidableEq, Repr

/-- The diagnostic events (R22, decision D17). -/
inductive Event where
  | arith (sym : ArithSym) (left right result : Word)
  | log (v : Word)
  | nopNotice
  | haltNotice
deriving DecidableEq, Repr

/-- The Register File: 12 words, each under its own name (R11). -/
structure RegFile where
  a : Word
  b : Word
  c : Word
  d : Word
  e : Word
  f : Word
  g : Word
  h : Word
  ex : Word
  exa : Word
  ip : Word
  sp : Word
deriving DecidableEq, Repr

/-- The Operand Stack's storage: pairs of a slot index and the word last written there since reset, in one canonical
form (`Memory.wf` in Machine/Ops.lean). A slot that is not listed has not been written since reset and reads as
`STACK_INIT` (`Memory.read`). Cells are words, never bytes (R34; log entry 3). -/
abbrev Memory := List (Nat × Word)

/-- Everything the spec gives the machine (R10), with `PROG` (R4, R23): the parameters `PROG` and `PROG_LEN` of the
step relation are carried in the state as the list of the program's words; no step changes it (R41; log entry 4). -/
structure State where
  /-- `x[0..11]`, the Register File with IP and SP in it (R11). -/
  regs : RegFile
  /-- `S[0..255]`, the Operand Stack (R18). -/
  stack : Memory
  /-- The state of the Execution Loop (R19). -/
  status : Status
  /-- `J`, the jumped-this-step flag (R20). -/
  jumped : Bool
  /-- `FCAUSE` (R21): `none` is code 0, no fault; `causeCode` (Machine/Ops.lean) gives the number. -/
  fcause : Option FaultCause
  /-- `FOP`: the opcode word of the faulting instruction, or −1 (R21). -/
  fop : Word
  /-- `FIP`: the value of `x[IP]` at the fetch of the faulting instruction (R21). -/
  fip : Word
  /-- `OUT`, the diagnostic output, oldest event first (R22). -/
  out : List Event
  /-- `PROG`; its length is `PROG_LEN` (R4, R23). -/
  prog : List Word
  /-- The MODEL's own field: which draw of the open parameter `STACK_INIT` this run has (R24, D26; log entry 2). -/
  draw : Nat
deriving DecidableEq, Repr

/-- Reasons the MODEL could stop with a fault of its own. There are none: every fault of the spec is TAKEN, as a next
state with `status = faulted` (R171), and the step is total (R181), so nobody raises one. Safe: an empty type says that
no path of the machine ends so (log entry 5). -/
inductive Fault where
deriving DecidableEq, Repr

/-- Reasons the model could refuse an instruction. -/
inductive Refusal where
  /-- Raised only by an arm of `exec` whose instruction has no meaning yet; no arm is such. Safe: it can only make a
  claim unprovable. -/
  | notModelled (mnemonic : String)
deriving DecidableEq, Repr

/-- The registers after reset: all 0 but SP = −1 (R24). -/
def RegFile.reset : RegFile :=
  { a := 0, b := 0, c := 0, d := 0, e := 0, f := 0, g := 0, h := 0, ex := 0, exa := 0, ip := 0, sp := -1 }

/-- The state right after a reset with the program `prog` in the Program Store (R24, R190, R192): no slot has been
written, so every slot reads as `STACK_INIT`, in its draw `draw`. -/
def State.resetWith (prog : List Word) (draw : Nat) : State :=
  { regs := RegFile.reset, stack := [], status := .running, jumped := false, fcause := none, fop := 0, fip := 0,
    out := [], prog := prog, draw := draw }

/-- The machine right after reset (R24, R190). No program is supplied yet: `PROG_LEN` = 0 (log entry 6). -/
def State.reset : State := State.resetWith [] 0

end Sys2Proof.Machine
end

