-- ==== Sys2Proof/Machine/Ops.lean ====
section
/-! DEFINITION. The named operations over registers, stack slots, the Program Store and the output stream (rules R11,
R22, R31 to R33), and taking a fault (R171). There is no return from a fault (R173): only reset leaves `faulted`, and
the reset input stands in Machine/Ports.lean. -/

namespace Sys2Proof.Machine

/-! ### Registers (R11, R12) -/

/-- `x[r]` of a Register File (R11). -/
def RegFile.read (x : RegFile) : Reg → Word
  | .a => x.a
  | .b => x.b
  | .c => x.c
  | .d => x.d
  | .e => x.e
  | .f => x.f
  | .g => x.g
  | .h => x.h
  | .ex => x.ex
  | .exa => x.exa
  | .ip => x.ip
  | .sp => x.sp

/-- `x[r] <- v` on a Register File: replaces that register and nothing else (R11). -/
def RegFile.write (x : RegFile) (r : Reg) (v : Word) : RegFile :=
  match r with
  | .a => { x with a := v }
  | .b => { x with b := v }
  | .c => { x with c := v }
  | .d => { x with d := v }
  | .e => { x with e := v }
  | .f => { x with f := v }
  | .g => { x with g := v }
  | .h => { x with h := v }
  | .ex => { x with ex := v }
  | .exa => { x with exa := v }
  | .ip => { x with ip := v }
  | .sp => { x with sp := v }

/-- `x[r]`: "the word last written to register `i` (or its reset value)" (R11). -/
def readReg (s : State) (r : Reg) : Word := s.regs.read r

/-- `x[r] <- v`: no side effect, no range check, IP and SP included (R11, R17). -/
def writeReg (r : Reg) (v : Word) (s : State) : State := { s with regs := s.regs.write r v }

/-- `x[IP]` as a signed index (R14). -/
def ipVal (s : State) : Int := (readReg s .ip).toInt

/-- `x[SP]` as a signed index (R16). -/
def spVal (s : State) : Int := (readReg s .sp).toInt

/-! ### The Operand Stack's storage (R18, R31) -/

/-- The word listed for slot `k`, if any. -/
def Memory.find (m : Memory) (k : Nat) : Option Word :=
  match m with
  | [] => none
  | (i, v) :: rest => if i = k then some v else Memory.find rest k

/-- What slot `k` reads as: the word written last, or, where nothing has been written since reset, the free value
`STACK_INIT[k]` (R18, R24, D26). This is the one definition of what an unlisted slot reads as. -/
def Memory.read (m : Memory) (draw k : Nat) : Word :=
  match Memory.find m k with
  | some v => v
  | none => Config.stackInit draw k

/-- Write word `v` to slot `k`, keeping the entries in rising order, one for each written slot. -/
def Memory.write (m : Memory) (k : Nat) (v : Word) : Memory :=
  match m with
  | [] => [(k, v)]
  | (i, w) :: rest =>
    if k < i then (k, v) :: (i, w) :: rest
    else if i = k then (k, v) :: rest
    else (i, w) :: Memory.write rest k v

/-- The canonical form: slot indices strictly rising and inside 0..255. What an unlisted slot reads as is a free value,
so no listed word can be known to equal it and a write never removes an entry (log entry 3). -/
abbrev Memory.wf (m : Memory) : Prop :=
  m.Pairwise (fun p q => p.1 < q.1) ∧ ∀ p ∈ m, p.1 < Config.stackCap

/-- `S[k]` (R18). -/
def readSlot (s : State) (k : Nat) : Word := Memory.read s.stack s.draw k

/-- `S[k] <- v`. -/
def writeSlot (k : Nat) (v : Word) (s : State) : State := { s with stack := Memory.write s.stack k v }

/-- `StackCheck(i)`: the slot that index `i` names, or the fault of the side of the array that was left (R31, D12). -/
def stackCheck (i : Int) : Except FaultCause Nat :=
  if i < 0 then .error .stackUnderflow
  else if 255 < i then .error .stackOverflow
  else .ok i.toNat

/-- `MemRead(i, 1)` (R31). -/
def memRead (i : Int) (s : State) : Except FaultCause Word :=
  match stackCheck i with
  | .error c => .error c
  | .ok k => .ok (readSlot s k)

/-- `MemWrite(i, 1, v)` (R31). -/
def memWrite (i : Int) (v : Word) (s : State) : Except FaultCause State :=
  match stackCheck i with
  | .error c => .error c
  | .ok k => .ok (writeSlot k v s)

/-! ### The three stack operations (R32) -/

/-- `push(v)`: check slot `x[SP] + 1`, then raise SP to it and store there (R32). -/
def push (v : Word) (s : State) : Except FaultCause State :=
  let i := spVal s + 1
  memWrite i v (writeReg .sp (wrap i) s)

/-- `pop()`: read at SP, then lower SP; the slot keeps its word (R18, R32). -/
def pop (s : State) : Except FaultCause (Word × State) :=
  let i := spVal s
  match memRead i s with
  | .error c => .error c
  | .ok v => .ok (v, writeReg .sp (wrap (i - 1)) s)

/-- `peek()`: read at SP without mutation (R32). -/
def peek (s : State) : Except FaultCause Word := memRead (spVal s) s

/-! ### The Program Store (R23, R33) and the output stream (R22) -/

/-- `PROG_LEN` (R4). -/
def progLen (s : State) : Nat := s.prog.length

/-- `ProgRead(i)`: word `i` of the Program Store; `none` outside 0..`PROG_LEN`−1, where the engine never reads (R33). -/
def progRead (s : State) (i : Int) : Option Word := if i < 0 then none else s.prog[i.toNat]?

/-- `emit(e)`: append event `e` to `OUT` (R22). -/
def emit (e : Event) (s : State) : State := { s with out := s.out ++ [e] }

/-! ### Taking a fault (R160, R171) -/

/-- The cause code of a fault, and 0 for no fault (R160, decision D7). -/
def causeCode : Option FaultCause → Nat
  | none => 0
  | some .unknownOpcode => 1
  | some .stackOverflow => 2
  | some .stackUnderflow => 3
  | some .divisionByZero => 4
  | some .outOfRangeJump => 5
  | some .truncatedOperand => 6
  | some .invalidRegister => 7

/-- `FOP` when no opcode was fetched: −1 (R21, R71, decision D28). -/
def noOpcode : Word := wrap (-1)

/-- `raise F`: the whole effect of a step that faults (R171). `s` is the state at the start of the step, so every write
of the faulting instruction is discarded (R172); `x[IP]` in it is the index of the faulting opcode word. -/
def raise (c : FaultCause) (op : Word) (s : State) : State :=
  { s with fcause := some c, fip := readReg s .ip, fop := op, status := .faulted, jumped := false }

/-- The fault each decode check raises (R162, R167, R168). -/
def decodeCause : DecodeError → FaultCause
  | .unknownOpcode => .unknownOpcode
  | .truncatedOperand => .truncatedOperand
  | .invalidRegister => .invalidRegister

end Sys2Proof.Machine
end

