-- ==== Sys2Proof/Machine/Flags.lean ====
section
/-! DEFINITION. The only flags the engine has (R25): the jumped-this-step flag `J` (R20) and the status (R19), with the
stages that read and write them: the IP policy (R15, R74), the status stage (R75), and the stages of one decoded
instruction together (R73 to R77). There are no condition codes. -/

namespace Sys2Proof.Machine

/-- `J <- false`, at the start of every step (R20, R71). -/
def clearJumped (s : State) : State := { s with jumped := false }

/-- `J <- true`: an explicit jump, which suppresses the advance (R20). -/
def setJumped (s : State) : State := { s with jumped := true }

/-- The advance stage: `if not J then x[IP] <- wrap(x[IP] + 1 + w)`, the IP on the right read after the execute stage's
register writes (R15, R74, decision D11). -/
def advance (o : Opcode) (s : State) : State :=
  if s.jumped then s else writeReg .ip (wrap (ipVal s + 1 + width o)) s

/-- The status stage: HLT sets `halted`; otherwise the status stays (R75). -/
def statusStage (o : Opcode) (s : State) : State :=
  match o with
  | .hlt => { s with status := .halted }
  | .psh | .pop | .add | .mul | .div | .sub | .slt | .mov | .set | .log | .ifEq | .ifNe | .gld | .gpt | .nop => s

/-- The fetch stage's normal end of a run: IP is at or beyond `PROG_LEN` (R71). Only `status` changes, but for `J`,
which the step cleared at its start (R80; log entry 7). -/
def exhaust (s : State) : State := { clearJumped s with status := .exhausted }

/-- The stages of one decoded instruction with opcode `o`: `J` is cleared, `body` does the execute stage (R73), and
either a fault is taken with the step's writes discarded (R77, R171, R172), or the advance (R74) and status (R75)
stages follow. -/
def runStages (o : Opcode) (body : State → Except FaultCause State) (s : State) :
    Host.Outcome State Fault Refusal :=
  match body (clearJumped s) with
  | .error c => .next (raise c (opcodeWord o) s)
  | .ok t => .next (statusStage o (advance o t))

end Sys2Proof.Machine
end

