-- ==== Sys2Proof/Machine/Operands.lean ====
section
/-! DEFINITION. The operand forms that need more than reading a register: the two stack operands of the arithmetic and
comparison instructions (rule R100), the values they compute (R101 to R107), and a branch target (R56, R142).
Immediates are the operand words themselves (R55), and register operands are read by `readReg` (R12, R54). -/

namespace Sys2Proof.Machine

/-- The two topmost stack operands (R100): the left operand, pushed first, with the slot it lies in (where the result
goes), and the right operand, the top of the stack. -/
structure StackOperands where
  slot : Nat
  left : Word
  right : Word
deriving DecidableEq, Repr

/-- R100, R105: `if sp < 1 then StackUnderflow; if sp > 255 then StackOverflow`, then `right = S[sp]` and
`left = S[sp − 1]`. Stated through `StackCheck` of both slots: the slots are `sp` and `sp − 1`. -/
def topTwo (s : State) : Except FaultCause StackOperands :=
  match stackCheck (spVal s - 1), stackCheck (spVal s) with
  | .error c, _ => .error c
  | .ok _, .error c => .error c
  | .ok kl, .ok kr => .ok { slot := kl, left := readSlot s kl, right := readSlot s kr }

/-- ADD's result: `wrap(left + right)` (R101, R106). -/
def addWords (left right : Word) : Word := wrap (left.toInt + right.toInt)

/-- MUL's result: `wrap(left × right)` (R102, R106). -/
def mulWords (left right : Word) : Word := wrap (left.toInt * right.toInt)

/-- SUB's result: `wrap(left − right)` (R104, R106). -/
def subWords (left right : Word) : Word := wrap (left.toInt - right.toInt)

/-- DIV's result for a divisor that is not 0: the quotient truncated toward zero, wrapped (R103, R107, D3). -/
def divWords (left right : Word) : Word := wrap (left.toInt.tdiv right.toInt)

/-- SLT's result: 1 if `second < top` as signed words, else 0 (R105; conflict C1). -/
def sltWords (second top : Word) : Word := if second.toInt < top.toInt then 1 else 0

/-- The result of an arithmetic instruction, or DIV's fault: the divisor is checked after the stack (R100, R165). -/
def arithResult (sym : ArithSym) (left right : Word) : Except FaultCause Word :=
  match sym with
  | .plus => .ok (addWords left right)
  | .times => .ok (mulWords left right)
  | .minus => .ok (subWords left right)
  | .divide => if right = 0 then .error .divisionByZero else .ok (divWords left right)

/-- Replace the two topmost words by `result` in the left operand's slot: SP goes down by one (R100, R105). -/
def replaceTopTwo (ops : StackOperands) (result : Word) (s : State) : State :=
  writeSlot ops.slot result (writeReg .sp (wrap (spVal s - 1)) s)

/-- `exec_ARITH(⊙, sym)` of rule R100: A, B, C receive the right operand, the left operand and the result, the result
replaces both operands, and the trace event is emitted. -/
def arith (sym : ArithSym) (s : State) : Except FaultCause State :=
  match topTwo s with
  | .error c => .error c
  | .ok ops =>
    match arithResult sym ops.left ops.right with
    | .error c => .error c
    | .ok result =>
      .ok (emit (.arith sym ops.left ops.right result)
        (replaceTopTwo ops result
          (writeReg .c result (writeReg .b ops.left (writeReg .a ops.right s)))))

/-- R56, R142: the legal range of a branch target, [0, `PROG_LEN`). -/
def targetInProgram (target : Word) (s : State) : Bool :=
  decide (0 ≤ target.toInt ∧ target.toInt < progLen s)

/-- A taken branch: `target` outside [0, `PROG_LEN`) raises `OutOfRangeJump`; otherwise IP takes it and `J` is set
(R140, R142). -/
def takeBranch (target : Word) (s : State) : Except FaultCause State :=
  if targetInProgram target s then .ok (setJumped (writeReg .ip target s))
  else .error .outOfRangeJump

end Sys2Proof.Machine
end

