-- ==== Sys2Proof/Machine/Arithmetic.lean ====
section
/-! DEFINITION. The stack arithmetic ADD, MUL, DIV, SUB and the comparison SLT (spec/42_arithmetic.md). -/

namespace Sys2Proof.Machine

/-- ADD (R101). -/
def execAdd (s : State) : Host.Outcome State Fault Refusal :=
  runStages .add (fun t => arith .plus t) s

/-- MUL (R102). -/
def execMul (s : State) : Host.Outcome State Fault Refusal :=
  runStages .mul (fun t => arith .times t) s

/-- DIV (R103). -/
def execDiv (s : State) : Host.Outcome State Fault Refusal :=
  runStages .div (fun t => arith .divide t) s

/-- SUB (R104). -/
def execSub (s : State) : Host.Outcome State Fault Refusal :=
  runStages .sub (fun t => arith .minus t) s

/-- The execute stage of SLT: no temporaries and no event (R105, D10, D17). -/
def compareTopTwo (s : State) : Except FaultCause State :=
  match topTwo s with
  | .error c => .error c
  | .ok ops => .ok (replaceTopTwo ops (sltWords ops.left ops.right) s)

/-- SLT (R105). -/
def execSlt (s : State) : Host.Outcome State Fault Refusal :=
  runStages .slt (fun t => compareTopTwo t) s

end Sys2Proof.Machine
end

