-- ==== Sys2Proof/Machine/Branch.lean ====
section
/-! DEFINITION. The control transfers IF and IFN (spec/44_branch.md). The target is looked at only when the branch is
taken (R142, decision D14). -/

namespace Sys2Proof.Machine

/-- IF rm,val,target (R140). -/
def execIfEq (rm : Reg) (val target : Word) (s : State) : Host.Outcome State Fault Refusal :=
  runStages .ifEq (fun t => if readReg t rm = val then takeBranch target t else .ok t) s

/-- IFN rm,val,target (R141). -/
def execIfNe (rm : Reg) (val target : Word) (s : State) : Host.Outcome State Fault Refusal :=
  runStages .ifNe (fun t => if readReg t rm ≠ val then takeBranch target t else .ok t) s

end Sys2Proof.Machine
end

