-- ==== Sys2Proof/Machine/RegisterOps.lean ====
section
/-! DEFINITION. The register instructions MOV, SET, GLD and GPT (spec/43_register_ops.md). IP and SP as operands need
no case of their own (R124): the value read is the one at the start of the step (R73), a write lands before the advance
(R74), and an unusable IP or SP is caught at its next use (R17). -/

namespace Sys2Proof.Machine

/-- MOV rsrc,rdst (R120). -/
def execMov (rsrc rdst : Reg) (s : State) : Host.Outcome State Fault Refusal :=
  runStages .mov (fun t => .ok (writeReg rdst (readReg t rsrc) t)) s

/-- SET rdst,val (R121). -/
def execSet (rdst : Reg) (val : Word) (s : State) : Host.Outcome State Fault Refusal :=
  runStages .set (fun t => .ok (writeReg rdst val t)) s

/-- GLD rm (R122): the register is read before `push` acts, so GLD SP pushes the old SP (D21). -/
def execGld (rm : Reg) (s : State) : Host.Outcome State Fault Refusal :=
  runStages .gld (fun t => push (readReg t rm) t) s

/-- The execute stage of GPT: `write(rm, peek())` (R32, R123). -/
def copyTop (rm : Reg) (s : State) : Except FaultCause State :=
  match peek s with
  | .error c => .error c
  | .ok v => .ok (writeReg rm v s)

/-- GPT rm (R123). -/
def execGpt (rm : Reg) (s : State) : Host.Outcome State Fault Refusal :=
  runStages .gpt (fun t => copyTop rm t) s

end Sys2Proof.Machine
end

