-- ==== Sys2Proof/Machine/StackOps.lean ====
section
/-! DEFINITION. The stack instructions PSH and POP (spec/41_stack_ops.md). -/

namespace Sys2Proof.Machine

/-- PSH val (R90). -/
def execPsh (val : Word) (s : State) : Host.Outcome State Fault Refusal :=
  runStages .psh (fun t => push val t) s

/-- The execute stage of POP: `pop()` with the value discarded (R32, R91). -/
def discardTop (s : State) : Except FaultCause State :=
  match pop s with
  | .error c => .error c
  | .ok (_, t) => .ok t

/-- POP (R91). -/
def execPop (s : State) : Host.Outcome State Fault Refusal :=
  runStages .pop (fun t => discardTop t) s

end Sys2Proof.Machine
end

