-- ==== Sys2Proof/Machine/System.lean ====
section
/-! DEFINITION. The system instructions HLT, LOG and NOP (spec/45_system.md). -/

namespace Sys2Proof.Machine

/-- HLT (R150): the notice, the advance, then `status <- Halted` in the status stage (R75). -/
def execHlt (s : State) : Host.Outcome State Fault Refusal :=
  runStages .hlt (fun t => .ok (emit .haltNotice t)) s

/-- LOG rm (R151). -/
def execLog (rm : Reg) (s : State) : Host.Outcome State Fault Refusal :=
  runStages .log (fun t => .ok (emit (.log (readReg t rm)) t)) s

/-- NOP (R152): its notice and the advance. -/
def execNop (s : State) : Host.Outcome State Fault Refusal :=
  runStages .nop (fun t => .ok (emit .nopNotice t)) s

end Sys2Proof.Machine
end

