-- ==== Sys2Proof/Machine/Dispatch.lean ====
section
/-! DEFINITION. The dispatch of rule R80, one arm for each instruction. -/

namespace Sys2Proof.Machine

def exec (i : Instr) (s : State) : Host.Outcome State Fault Refusal :=
  match i with
  | .hlt => Sys2Proof.Machine.execHlt s
  | .psh val => Sys2Proof.Machine.execPsh val s
  | .pop => Sys2Proof.Machine.execPop s
  | .add => Sys2Proof.Machine.execAdd s
  | .mul => Sys2Proof.Machine.execMul s
  | .div => Sys2Proof.Machine.execDiv s
  | .sub => Sys2Proof.Machine.execSub s
  | .slt => Sys2Proof.Machine.execSlt s
  | .mov rsrc rdst => Sys2Proof.Machine.execMov rsrc rdst s
  | .set rdst val => Sys2Proof.Machine.execSet rdst val s
  | .log rm => Sys2Proof.Machine.execLog rm s
  | .ifEq rm val target => Sys2Proof.Machine.execIfEq rm val target s
  | .ifNe rm val target => Sys2Proof.Machine.execIfNe rm val target s
  | .gld rm => Sys2Proof.Machine.execGld rm s
  | .gpt rm => Sys2Proof.Machine.execGpt rm s
  | .nop => Sys2Proof.Machine.execNop s

end Sys2Proof.Machine
end

