-- ==== Sys2Proof/Machine/Fetch.lean ====
section
/-! DEFINITION. The fetch and decode stages (rules R71, R72), and where a word has to stand to be fetched next. -/

namespace Sys2Proof.Machine

/-- What the fetch and decode stages find. -/
inductive FetchResult where
  /-- A fault before the execute stage, with the word `FOP` records (R71, R72, R171). -/
  | fault (c : FaultCause) (op : Word)
  /-- IP is at or beyond `PROG_LEN` (R71). -/
  | exhausted
  /-- An instruction to execute (R73). -/
  | instr (i : Instr)
deriving DecidableEq, Repr

/-- R71, R72: a negative IP raises `OutOfRangeJump` with `FOP` = −1; an IP at or beyond `PROG_LEN` ends the run; else
the word at IP is the opcode word, and its operands are looked for in the words after it. -/
def fetch (s : State) : FetchResult :=
  if ipVal s < 0 then .fault .outOfRangeJump noOpcode
  else
    match progRead s (ipVal s) with
    | none => .exhausted
    | some op =>
      match decode op (s.prog.drop ((ipVal s).toNat + 1)) with
      | .error e => .fault (decodeCause e) op
      | .ok i => .instr i

/-- One step taken while `status` is `running` (R80), given what executes an instruction. -/
def runningStep (run : Instr → State → Host.Outcome State Fault Refusal) (s : State) :
    Host.Outcome State Fault Refusal :=
  match fetch s with
  | .fault c op => .next (raise c op s)
  | .exhausted => .next (exhaust s)
  | .instr i => run i s

/-- A step in a terminal state: "the engine takes no step and no state changes" (R76; log entry 8). -/
def terminalStep (s : State) : Host.Outcome State Fault Refusal := .next s

/-- The index the next fetch can read at: IP where `len` words from it on lie in a legal program (R4), else 0. -/
def fetchIndex (s : State) (len : Nat) : Nat :=
  if 0 ≤ ipVal s ∧ ipVal s + len ≤ Config.progLenMax then (ipVal s).toNat else 0

/-- `prog` with the words `ws` from index `p` on, lengthened by zero words where it is too short. -/
def placeWords (prog : List Word) (p : Nat) (ws : List Word) : List Word :=
  prog.take p ++ List.replicate (p - prog.length) 0 ++ ws ++ prog.drop (p + ws.length)

/-- `s` with the words `ws` in the Program Store where the next fetch reads, the status `running`, and IP at them (IP
keeps its value where it can). -/
def withWordsAtIp (s : State) (ws : List Word) : State :=
  let p := fetchIndex s ws.length
  writeReg .ip (wrap p) { s with status := .running, prog := placeWords s.prog p ws }

end Sys2Proof.Machine
end

