-- ==== Sys2Proof/Machine/Step.lean ====
section
/-! DEFINITION. The step (rule R80), and the placing of an instruction where the step fetches. -/

namespace Sys2Proof.Machine

/-- One step (R71 to R77, R80). "A step is taken only when `status == Running`" (R71). -/
def step (s : State) : Host.Outcome State Fault Refusal :=
  match s.status with
  | .running => runningStep exec s
  | .halted => terminalStep s
  | .exhausted => terminalStep s
  | .faulted => terminalStep s

/-- `s` with the instruction whose bits are `w` (see `tableWords`) stored where the next step fetches. This stands for
the host's loading of a program (R192; log entry 6). -/
def State.withFetchWord (s : State) (nbits w : Nat) : State := withWordsAtIp s (tableWords nbits w)

end Sys2Proof.Machine
end

