-- ==== Sys2Proof/Machine/Ports.lean ====
section
/-! DEFINITION. The interfaces of the block (rule R196): the status and fault-record outputs, the debug read port, and
the reset input. The program-store read port is `progRead` (R33) and the diagnostic event port is the field `out`
(R22). No interface writes a register, a slot or the status. -/

namespace Sys2Proof.Machine

/-- The status output, 2 bits: 0 `Running`, 1 `Halted`, 2 `Exhausted`, 3 `Faulted` (R19, R196, decision D7). -/
def statusOutput (s : State) : BitVec 2 :=
  match s.status with
  | .running => 0
  | .halted => 1
  | .exhausted => 2
  | .faulted => 3

/-- What the fault record output carries (R196): `FCAUSE` as its code, `FIP`, `FOP`. -/
structure FaultRecordOutput where
  fcause : Nat
  fip : Word
  fop : Word
deriving DecidableEq, Repr

/-- The fault record output (R21, R196). -/
def faultRecordOutput (s : State) : FaultRecordOutput :=
  { fcause := causeCode s.fcause, fip := s.fip, fop := s.fop }

/-- The debug read port over the Register File: any register, valid when `status ≠ Running` (R43, R196). -/
def debugReadReg (s : State) (r : Reg) : Option Word :=
  if s.status = .running then none else some (readReg s r)

/-- The debug read port over the Operand Stack: any slot, valid when `status ≠ Running` (R43, R196). -/
def debugReadSlot (s : State) (k : Nat) : Option Word :=
  if s.status = .running ∨ Config.stackCap ≤ k then none else some (readSlot s k)

/-- The reset input (R190, R191): every piece of state goes to its reset value, from any state, with the program the
host supplies (R192); the slots hold a new draw of `STACK_INIT` (log entry 2). -/
def resetInput (prog : List Word) (s : State) : State := State.resetWith prog (s.draw + 1)

end Sys2Proof.Machine
end

