-- ==== Sys2Proof/Safety.lean ====
section
/-! DEFINITION. What the statements speak of: how a run ends (rules R78, R181), the invariants of reachable states
(R26), what a step leaves unchanged, and agreement of two machines on all that a program can see. -/

namespace Sys2Proof.Machine

/-! ### Ends of a run (R76, R181) -/

/-- A terminal state: `Halted`, `Exhausted` or `Faulted` (R76). -/
abbrev Terminal (s : State) : Prop := s.status ≠ .running

/-- A normal end of a run (R181). -/
abbrev NormalEnd (s : State) : Prop := s.status = .halted ∨ s.status = .exhausted

/-- A fault end of a run (R181). -/
abbrev FaultEnd (s : State) : Prop := s.status = .faulted

/-- `k` steps lead from `s` to `t`. -/
inductive Steps : Nat → State → State → Prop where
  | zero (s : State) : Steps 0 s s
  | more {k : Nat} {s t u : State} : Steps k s t → step t = .next u → Steps (k + 1) s u

/-! ### Invariants (R26, R78) -/

/-- The fault record and the status agree (R26 b), the record is 0 while there is no fault (R24), and in a `Faulted`
state IP is the recorded `FIP` (R78). -/
abbrev FaultRecordWf (s : State) : Prop :=
  (s.status = .faulted ↔ s.fcause ≠ none) ∧
  (s.fcause = none → s.fip = 0 ∧ s.fop = 0) ∧
  (s.fcause ≠ none → s.fip = readReg s .ip)

/-- The end of a run left the mark its rule gives (R78, R150): a `Halted` run's last event is HLT's, an `Exhausted`
run's IP is at or beyond `PROG_LEN`. -/
abbrev EndWf (s : State) : Prop :=
  (s.status = .halted → s.out.getLast? = some .haltNotice) ∧
  (s.status = .exhausted → (progLen s : Int) ≤ ipVal s)

/-- `J` is true only after a taken branch (R20, R74), so IP is then inside the program (R142). -/
abbrev JumpedWf (s : State) : Prop :=
  s.jumped = true → s.status = .running ∧ 0 ≤ ipVal s ∧ ipVal s < progLen s

/-- The invariant every step keeps, whatever the program does. -/
abbrev MachineInv (s : State) : Prop := Memory.wf s.stack ∧ FaultRecordWf s ∧ EndWf s ∧ JumpedWf s

/-- The intended stack invariant: −1 ≤ `x[SP]` ≤ 255 (R16, R26 e). -/
abbrev SpInRange (s : State) : Prop := -1 ≤ spVal s ∧ spVal s ≤ 255

/-- Slot `k` has been written since reset. -/
abbrev Written (s : State) (k : Nat) : Prop := Memory.find s.stack k ≠ none

/-- R26 e: SP is in range and "every slot `S[0..x[SP]]` was written since reset". -/
def StackSound (s : State) : Prop := SpInRange s ∧ ∀ k : Nat, (k : Int) ≤ spVal s → Written s k

/-- R26 f: 0 ≤ `x[IP]` ≤ `PROG_LEN`, for a `PROG_LEN` the spec admits (R4). -/
abbrev IpInRange (s : State) : Prop :=
  progLen s ≤ Config.progLenMax ∧ 0 ≤ ipVal s ∧ ipVal s ≤ progLen s

/-! ### What an instruction writes (R12, R120, R121, R123) -/

/-- The register an instruction names as its destination: that of MOV, SET and GPT. -/
def destination : Instr → Option Reg
  | .hlt => none
  | .psh _ => none
  | .pop => none
  | .add => none
  | .mul => none
  | .div => none
  | .sub => none
  | .slt => none
  | .mov _ rdst => some rdst
  | .set rdst _ => some rdst
  | .log _ => none
  | .ifEq _ _ _ => none
  | .ifNe _ _ _ => none
  | .gld _ => none
  | .gpt rm => some rm
  | .nop => none

/-- The next step executes instruction `i`: the status is `Running`, since a terminal state executes nothing (R76), and
the fetch and decode stages find `i`. -/
def Executes (i : Instr) (s : State) : Prop := s.status = .running ∧ fetch s = .instr i

/-- The next step executes no MOV, SET or GPT whose destination is `r`. It holds of every terminal state (R76). -/
def NotDestination (r : Reg) (s : State) : Prop := ∀ i, Executes i s → destination i ≠ some r

/-! ### Frames -/

/-- Every register outside `rs` reads as before. -/
def SameRegsExcept (rs : List Reg) (s t : State) : Prop := ∀ r, r ∉ rs → readReg t r = readReg s r

/-- Every stack slot reads as before. -/
def SameSlots (s t : State) : Prop := ∀ k, readSlot t k = readSlot s k

/-- Every stack slot but `j` reads as before. -/
def SameSlotsExcept (j : Nat) (s t : State) : Prop := ∀ k, k ≠ j → readSlot t k = readSlot s k

/-- The fault record and the program are unchanged (R21, R41). -/
abbrev SameRecord (s t : State) : Prop :=
  t.fcause = s.fcause ∧ t.fip = s.fip ∧ t.fop = s.fop ∧ t.prog = s.prog

/-- An instruction that is no branch taken, no HLT and emits nothing (R20, R22, R75): `J` is false, and status, output,
fault record and program are unchanged. -/
abbrev Quiet (s t : State) : Prop := t.jumped = false ∧ t.status = s.status ∧ t.out = s.out ∧ SameRecord s t

/-- As `Quiet`, but the one event `e` is emitted (R22). -/
abbrev QuietBut (e : Event) (s t : State) : Prop :=
  t.jumped = false ∧ t.status = s.status ∧ t.out = s.out ++ [e] ∧ SameRecord s t

/-- What `raise` leaves (R171, R172): the fault record holds the cause, the start IP and the opcode word, `status` is
`Faulted`, `J` is false, and registers, slots, output and program are as before. -/
def FaultTaken (c : FaultCause) (op : Word) (s t : State) : Prop :=
  t.fcause = some c ∧ t.fip = readReg s .ip ∧ t.fop = op ∧ t.status = .faulted ∧ t.jumped = false ∧
  SameRegsExcept [] s t ∧ SameSlots s t ∧ t.out = s.out ∧ t.prog = s.prog

/-! ### Patterns shared by the arithmetic statements -/

/-- The success clause of rule R100 for instruction `i` with operator symbol `sym` and exact operation `f`: in every
state with at least two elements whose right operand meets `guard`, the instruction completes; A, B, C hold the right
operand, the left operand and the wrapped result; the result replaces both operands in slot `x[SP] − 1`; the event is
emitted; IP goes to `p + 1`; nothing else changes. -/
def ArithCompletes (i : Instr) (sym : ArithSym) (f : Int → Int → Int) (guard : Word → Prop) : Prop :=
  ∀ (s : State) (k : Nat), spVal s - 1 = k → k + 1 ≤ 255 → guard (readSlot s (k + 1)) →
    ∃ t, exec i s = .next t ∧
      readReg t .a = readSlot s (k + 1) ∧ readReg t .b = readSlot s k ∧
      readReg t .c = wrap (f (readSlot s k).toInt (readSlot s (k + 1)).toInt) ∧
      spVal t = k ∧ readSlot t k = wrap (f (readSlot s k).toInt (readSlot s (k + 1)).toInt) ∧
      readReg t .ip = wrap (ipVal s + 1) ∧
      SameRegsExcept [.a, .b, .c, .sp, .ip] s t ∧ SameSlotsExcept k s t ∧
      QuietBut (.arith sym (readSlot s k) (readSlot s (k + 1))
        (wrap (f (readSlot s k).toInt (readSlot s (k + 1)).toInt))) s t

/-- The stack-fault clauses of rules R100 and R105 for instruction `i` with opcode word `op`. -/
def TwoOperandFaults (i : Instr) (op : Word) : Prop :=
  ∀ s : State,
    (spVal s < 1 → ∃ t, exec i s = .next t ∧ FaultTaken .stackUnderflow op s t) ∧
    (255 < spVal s → ∃ t, exec i s = .next t ∧ FaultTaken .stackOverflow op s t)

/-! ### Decode checks (R54, R58) -/

/-- An operand word that names no register: outside 0..11 (R54). -/
abbrev NotRegister (w : Word) : Prop := w.toInt < 0 ∨ 11 < w.toInt

/-- The register operand positions of an opcode, counting operand words from 1 (R54). -/
def registerPositions : Opcode → List Nat
  | .hlt => []
  | .psh => []
  | .pop => []
  | .add => []
  | .mul => []
  | .div => []
  | .sub => []
  | .slt => []
  | .mov => [1, 2]
  | .set => [1]
  | .log => [1]
  | .ifEq => [1]
  | .ifNe => [1]
  | .gld => [1]
  | .gpt => [1]
  | .nop => []

/-- The decoder rejects opcode word `op` as truncated when fewer than `w` words follow it (R58). -/
abbrev RejectsTruncated (op : Word) (w : Nat) : Prop :=
  ∀ rest : List Word, rest.length < w → decode op rest = .error .truncatedOperand

/-- The decoder rejects opcode word `op`, with `more` operand words after the first, when its first operand word names
no register (R54). -/
abbrev RejectsRegister (op : Word) (more : Nat) : Prop :=
  ∀ (bad : Word) (rest : List Word), NotRegister bad → more ≤ rest.length →
    decode op (bad :: rest) = .error .invalidRegister

/-! ### Which opcode words a fault cause can come with (R160) -/

/-- R160, column "raised by": the values `FOP` can have when a fault of cause `c` is taken. -/
def fopPossible (c : FaultCause) (op : Word) : Prop :=
  match c with
  | .unknownOpcode => ¬ (0 ≤ op.toInt ∧ op.toInt ≤ 15)
  | .stackOverflow => op.toInt ∈ ([1, 2, 3, 4, 5, 6, 7, 13, 14] : List Int)
  | .stackUnderflow => op.toInt ∈ ([1, 2, 3, 4, 5, 6, 7, 13, 14] : List Int)
  | .divisionByZero => op.toInt = 5
  | .outOfRangeJump => op.toInt ∈ ([11, 12, -1] : List Int)
  | .truncatedOperand => op.toInt ∈ ([1, 8, 9, 10, 11, 12, 13, 14] : List Int)
  | .invalidRegister => op.toInt ∈ ([8, 9, 10, 11, 12, 13, 14] : List Int)

/-! ### Agreement of two machines -/

/-- Two states agree on everything but the slots above SP (R16, R24): registers, status, `J`, fault record, output,
program, and every slot from 0 to `x[SP]`. -/
def AgreeUpToTop (s t : State) : Prop :=
  s.regs = t.regs ∧ s.status = t.status ∧ s.jumped = t.jumped ∧ s.fcause = t.fcause ∧ s.fip = t.fip ∧
  s.fop = t.fop ∧ s.out = t.out ∧ s.prog = t.prog ∧
  ∀ k : Nat, (k : Int) ≤ spVal s → readSlot s k = readSlot t k

end Sys2Proof.Machine
end

