-- ==== Sys2Proof/Certificates/Slice0/Obligations.lean ====
section
/-! DEFINITION. The statements for the provers, from the numbered rules of spec/. Throughout, `s` is the state at the
start, `t` the next state, and a slot index `k` is a natural number that equals an index the rule computes from SP. -/

open Sys2Proof Sys2Proof.Machine

/-! ### Words (R7, R107) -/

/-- R7: `wrap(v)` is the unique word congruent to `v` modulo 2^32. -/
def Obligations.WrapIsUniqueCongruentWord : Prop :=
  ∀ (v : Int) (w : Word), w = wrap v ↔ (4294967296 : Int) ∣ (w.toInt - v)

/-- R107: for a divisor that is not 0 the quotient `q` has `|q| = floor(|left| / |right|)` and is negative exactly when
the operands have opposite signs and `q` is not 0; the result is `wrap(q)`. A divisor of 0 gives `DivisionByZero`,
whatever `left` is. -/
def Obligations.DivQuotientTruncatesTowardZero : Prop :=
  ∀ left right : Word,
    (right ≠ 0 →
      ∃ q : Int, arithResult .divide left right = .ok (wrap q) ∧
        q.natAbs = left.toInt.natAbs / right.toInt.natAbs ∧
        (q < 0 ↔ ((left.toInt < 0 ∧ 0 < right.toInt) ∨ (0 < left.toInt ∧ right.toInt < 0)) ∧ q ≠ 0)) ∧
    (right = 0 → arithResult .divide left right = .error .divisionByZero)

/-! ### Encoding (R50 to R60) -/

/-- Decode and encode agree on every instruction, whatever words follow it in the program. -/
def Obligations.DecodeOfEncodeIsInstr : Prop :=
  ∀ (i : Instr) (rest : List Word), ∃ op operands,
    encode i = op :: operands ∧ decode op (operands ++ rest) = .ok i

/-- The other direction: what decodes to an instruction is its encoding, followed by whatever comes next. -/
def Obligations.EncodeOfDecodeIsWords : Prop :=
  ∀ (op : Word) (rest : List Word) (i : Instr), decode op rest = .ok i →
    encode i = op :: rest.take (width i.opcode)

/-- When each of the three decode checks rejects, in the order of R60. -/
def Obligations.DecodeRejectsExactly : Prop :=
  ∀ (op : Word) (rest : List Word),
    (decode op rest = .error .unknownOpcode ↔ op.toInt < 0 ∨ 15 < op.toInt) ∧
    (decode op rest = .error .truncatedOperand ↔ ∃ o, op = opcodeWord o ∧ rest.length < width o) ∧
    (decode op rest = .error .invalidRegister ↔
      ∃ o, op = opcodeWord o ∧ width o ≤ rest.length ∧
        ∃ j ∈ registerPositions o, ∃ w, rest[j - 1]? = some w ∧ NotRegister w)

/-- R62: words written out from the encoding tables decode to the instructions they stand for. -/
def Obligations.WrittenWordsDecode : Prop :=
  decode 9 [0, 7] = .ok (.set .a 7) ∧ decode 8 [0, 1] = .ok (.mov .a .b) ∧
  decode 1 [0xFFFFFFFF] = .ok (.psh (wrap (-1))) ∧ decode 12 [3, 0, 3] = .ok (.ifNe .d 0 3) ∧
  decode 10 [1] = .ok (.log .b) ∧ decode 13 [11] = .ok (.gld .sp) ∧ decode 0 [] = .ok .hlt

/-! ### Stack instructions (R90, R91) -/

/-- R90: PSH. -/
def Obligations.PshPushesImmediate : Prop :=
  ∀ (val : Word) (s : State),
    encode (.psh val) = [1, val] ∧ RejectsTruncated 1 1 ∧
    (∀ k : Nat, spVal s + 1 = k → k ≤ 255 →
      ∃ t, exec (.psh val) s = .next t ∧ spVal t = k ∧ readSlot t k = val ∧ readReg t .ip = wrap (ipVal s + 2) ∧
        SameRegsExcept [.sp, .ip] s t ∧ SameSlotsExcept k s t ∧ Quiet s t) ∧
    (255 ≤ spVal s → ∃ t, exec (.psh val) s = .next t ∧ FaultTaken .stackOverflow 1 s t) ∧
    (spVal s < -1 → ∃ t, exec (.psh val) s = .next t ∧ FaultTaken .stackUnderflow 1 s t)

/-- R91: POP. It stores nothing: the slot popped keeps its word. -/
def Obligations.PopDiscardsTop : Prop :=
  ∀ s : State,
    encode .pop = [2] ∧
    (0 ≤ spVal s → spVal s ≤ 255 →
      ∃ t, exec .pop s = .next t ∧ spVal t = spVal s - 1 ∧ readReg t .ip = wrap (ipVal s + 1) ∧
        SameRegsExcept [.sp, .ip] s t ∧ SameSlots s t ∧ Quiet s t) ∧
    (spVal s < 0 → ∃ t, exec .pop s = .next t ∧ FaultTaken .stackUnderflow 2 s t) ∧
    (255 < spVal s → ∃ t, exec .pop s = .next t ∧ FaultTaken .stackOverflow 2 s t)

/-! ### Arithmetic and comparison (R100 to R105) -/

/-- R101: ADD. -/
def Obligations.AddWrapsExactSum : Prop :=
  encode .add = [3] ∧ ArithCompletes .add .plus (fun l r => l + r) (fun _ => True) ∧ TwoOperandFaults .add 3

/-- R102: MUL. -/
def Obligations.MulWrapsExactProduct : Prop :=
  encode .mul = [4] ∧ ArithCompletes .mul .times (fun l r => l * r) (fun _ => True) ∧ TwoOperandFaults .mul 4

/-- R103: DIV, with `Int.tdiv` the quotient truncated toward zero. The divisor is checked after the stack. -/
def Obligations.DivWrapsTruncatedQuotient : Prop :=
  encode .div = [5] ∧ ArithCompletes .div .divide (fun l r => l.tdiv r) (fun r => r ≠ 0) ∧
  TwoOperandFaults .div 5 ∧
  ∀ (s : State) (k : Nat), spVal s = k → 1 ≤ k → k ≤ 255 → readSlot s k = 0 →
    ∃ t, exec .div s = .next t ∧ FaultTaken .divisionByZero 5 s t

/-- R104: SUB, left operand minus right operand. -/
def Obligations.SubWrapsExactDifference : Prop :=
  encode .sub = [6] ∧ ArithCompletes .sub .minus (fun l r => l - r) (fun _ => True) ∧ TwoOperandFaults .sub 6

/-- R105: SLT. It writes no register but SP and IP and emits nothing. -/
def Obligations.SltComparesSigned : Prop :=
  encode .slt = [7] ∧ TwoOperandFaults .slt 7 ∧
  ∀ (s : State) (k : Nat), spVal s - 1 = k → k + 1 ≤ 255 →
    ∃ t, exec .slt s = .next t ∧ spVal t = k ∧
      readSlot t k = (if (readSlot s k).toInt < (readSlot s (k + 1)).toInt then 1 else 0) ∧
      readReg t .ip = wrap (ipVal s + 1) ∧ SameRegsExcept [.sp, .ip] s t ∧ SameSlotsExcept k s t ∧ Quiet s t

/-! ### Register instructions (R120 to R124) -/

/-- R120, R124: MOV. A destination IP receives the value and is then advanced by 3. -/
def Obligations.MovCopiesRegister : Prop :=
  ∀ (rsrc rdst : Reg) (s : State),
    encode (.mov rsrc rdst) = [8, regWord rsrc, regWord rdst] ∧ RejectsTruncated 8 2 ∧ RejectsRegister 8 1 ∧
    (∀ (good : Reg) (bad : Word) (rest : List Word), NotRegister bad →
      decode 8 (regWord good :: bad :: rest) = .error .invalidRegister) ∧
    ∃ t, exec (.mov rsrc rdst) s = .next t ∧
      readReg t rdst = (if rdst = .ip then wrap ((readReg s rsrc).toInt + 3) else readReg s rsrc) ∧
      (rdst ≠ .ip → readReg t .ip = wrap (ipVal s + 3)) ∧
      SameRegsExcept [rdst, .ip] s t ∧ SameSlots s t ∧ Quiet s t

/-- R121, R124: SET. A destination IP receives the value and is then advanced by 3. -/
def Obligations.SetLoadsImmediate : Prop :=
  ∀ (rdst : Reg) (val : Word) (s : State),
    encode (.set rdst val) = [9, regWord rdst, val] ∧ RejectsTruncated 9 2 ∧ RejectsRegister 9 1 ∧
    ∃ t, exec (.set rdst val) s = .next t ∧
      readReg t rdst = (if rdst = .ip then wrap (val.toInt + 3) else val) ∧
      (rdst ≠ .ip → readReg t .ip = wrap (ipVal s + 3)) ∧
      SameRegsExcept [rdst, .ip] s t ∧ SameSlots s t ∧ Quiet s t

/-- R122, R124: GLD. What is pushed is the register's value at the start of the step, SP's and IP's too. -/
def Obligations.GldPushesRegister : Prop :=
  ∀ (rm : Reg) (s : State),
    encode (.gld rm) = [13, regWord rm] ∧ RejectsTruncated 13 1 ∧ RejectsRegister 13 0 ∧
    (∀ k : Nat, spVal s + 1 = k → k ≤ 255 →
      ∃ t, exec (.gld rm) s = .next t ∧ spVal t = k ∧ readSlot t k = readReg s rm ∧
        readReg t .ip = wrap (ipVal s + 2) ∧
        SameRegsExcept [.sp, .ip] s t ∧ SameSlotsExcept k s t ∧ Quiet s t) ∧
    (255 ≤ spVal s → ∃ t, exec (.gld rm) s = .next t ∧ FaultTaken .stackOverflow 13 s t) ∧
    (spVal s < -1 → ∃ t, exec (.gld rm) s = .next t ∧ FaultTaken .stackUnderflow 13 s t)

/-- R123, R124: GPT. It stores nothing and does not pop; a destination IP is advanced by 2 from the copied value. -/
def Obligations.GptCopiesTop : Prop :=
  ∀ (rm : Reg) (s : State),
    encode (.gpt rm) = [14, regWord rm] ∧ RejectsTruncated 14 1 ∧ RejectsRegister 14 0 ∧
    (∀ k : Nat, spVal s = k → k ≤ 255 →
      ∃ t, exec (.gpt rm) s = .next t ∧
        readReg t rm = (if rm = .ip then wrap ((readSlot s k).toInt + 2) else readSlot s k) ∧
        (rm ≠ .ip → readReg t .ip = wrap (ipVal s + 2)) ∧
        SameRegsExcept [rm, .ip] s t ∧ SameSlots s t ∧ Quiet s t) ∧
    (spVal s < 0 → ∃ t, exec (.gpt rm) s = .next t ∧ FaultTaken .stackUnderflow 14 s t) ∧
    (255 < spVal s → ∃ t, exec (.gpt rm) s = .next t ∧ FaultTaken .stackOverflow 14 s t)

/-! ### Branches (R140 to R142) -/

/-- R140, R142: IF. -/
def Obligations.IfBranchesOnEqual : Prop :=
  ∀ (rm : Reg) (val target : Word) (s : State),
    encode (.ifEq rm val target) = [11, regWord rm, val, target] ∧ RejectsTruncated 11 3 ∧ RejectsRegister 11 2 ∧
    (readReg s rm = val → 0 ≤ target.toInt → target.toInt < progLen s →
      ∃ t, exec (.ifEq rm val target) s = .next t ∧ readReg t .ip = target ∧ t.jumped = true ∧
        SameRegsExcept [.ip] s t ∧ SameSlots s t ∧ t.status = s.status ∧ t.out = s.out ∧ SameRecord s t) ∧
    (readReg s rm = val → (target.toInt < 0 ∨ (progLen s : Int) ≤ target.toInt) →
      ∃ t, exec (.ifEq rm val target) s = .next t ∧ FaultTaken .outOfRangeJump 11 s t) ∧
    (readReg s rm ≠ val →
      ∃ t, exec (.ifEq rm val target) s = .next t ∧ readReg t .ip = wrap (ipVal s + 4) ∧
        SameRegsExcept [.ip] s t ∧ SameSlots s t ∧ Quiet s t)

/-- R141, R142: IFN. The last two clauses: of IF and IFN with the same operands exactly one takes its branch, in every
state and for every target. With a target in range that one sets `J`; with a target out of range that one takes
`OutOfRangeJump` and keeps IP (R172), while the other advances IP by 4. -/
def Obligations.IfnBranchesOnUnequal : Prop :=
  ∀ (rm : Reg) (val target : Word) (s : State),
    encode (.ifNe rm val target) = [12, regWord rm, val, target] ∧ RejectsTruncated 12 3 ∧ RejectsRegister 12 2 ∧
    (readReg s rm ≠ val → 0 ≤ target.toInt → target.toInt < progLen s →
      ∃ t, exec (.ifNe rm val target) s = .next t ∧ readReg t .ip = target ∧ t.jumped = true ∧
        SameRegsExcept [.ip] s t ∧ SameSlots s t ∧ t.status = s.status ∧ t.out = s.out ∧ SameRecord s t) ∧
    (readReg s rm ≠ val → (target.toInt < 0 ∨ (progLen s : Int) ≤ target.toInt) →
      ∃ t, exec (.ifNe rm val target) s = .next t ∧ FaultTaken .outOfRangeJump 12 s t) ∧
    (readReg s rm = val →
      ∃ t, exec (.ifNe rm val target) s = .next t ∧ readReg t .ip = wrap (ipVal s + 4) ∧
        SameRegsExcept [.ip] s t ∧ SameSlots s t ∧ Quiet s t) ∧
    (0 ≤ target.toInt → target.toInt < progLen s →
      ∃ t u, exec (.ifEq rm val target) s = .next t ∧ exec (.ifNe rm val target) s = .next u ∧
        t.jumped = !u.jumped) ∧
    ((target.toInt < 0 ∨ (progLen s : Int) ≤ target.toInt) →
      ∃ t u, exec (.ifEq rm val target) s = .next t ∧ exec (.ifNe rm val target) s = .next u ∧
        ((FaultTaken .outOfRangeJump 11 s t ∧ readReg u .ip = wrap (ipVal s + 4) ∧ Quiet s u) ∨
         (FaultTaken .outOfRangeJump 12 s u ∧ readReg t .ip = wrap (ipVal s + 4) ∧ Quiet s t)))

/-! ### System instructions (R150 to R152) -/

/-- R150: HLT. -/
def Obligations.HltHaltsWithNotice : Prop :=
  ∀ s : State, encode .hlt = [0] ∧
    ∃ t, exec .hlt s = .next t ∧ t.status = .halted ∧ readReg t .ip = wrap (ipVal s + 1) ∧
      t.out = s.out ++ [.haltNotice] ∧ t.jumped = false ∧
      SameRegsExcept [.ip] s t ∧ SameSlots s t ∧ SameRecord s t

/-- R151: LOG. -/
def Obligations.LogEmitsRegister : Prop :=
  ∀ (rm : Reg) (s : State),
    encode (.log rm) = [10, regWord rm] ∧ RejectsTruncated 10 1 ∧ RejectsRegister 10 0 ∧
    ∃ t, exec (.log rm) s = .next t ∧ readReg t .ip = wrap (ipVal s + 2) ∧
      SameRegsExcept [.ip] s t ∧ SameSlots s t ∧ QuietBut (.log (readReg s rm)) s t

/-- R152: NOP. -/
def Obligations.NopOnlyAdvances : Prop :=
  ∀ s : State, encode .nop = [15] ∧
    ∃ t, exec .nop s = .next t ∧ readReg t .ip = wrap (ipVal s + 1) ∧
      SameRegsExcept [.ip] s t ∧ SameSlots s t ∧ QuietBut .nopNotice s t

/-! ### Stack primitives (R31, R32) -/

/-- R31: `MemRead` and `MemWrite` check the index first, fault by the side left, and else read and write that slot. -/
def Obligations.SlotAccessChecksIndexFirst : Prop :=
  ∀ (i : Int) (v : Word) (s : State),
    (i < 0 → memRead i s = .error .stackUnderflow ∧ memWrite i v s = .error .stackUnderflow) ∧
    (255 < i → memRead i s = .error .stackOverflow ∧ memWrite i v s = .error .stackOverflow) ∧
    (∀ k : Nat, i = k → k ≤ 255 → memRead i s = .ok (readSlot s k) ∧
      ∃ t, memWrite i v s = .ok t ∧ memRead i t = .ok v ∧ SameSlotsExcept k s t ∧
        SameRegsExcept [] s t ∧ t.jumped = s.jumped ∧ t.status = s.status ∧ t.out = s.out ∧ SameRecord s t)

/-- R32: `push` raises SP and stores there, `pop` reads at SP and lowers it, `peek` reads at SP, each after its index
check; `pop` leaves the old word in its slot. -/
def Obligations.StackOpsMoveSpAroundOneSlot : Prop :=
  ∀ (v : Word) (s : State),
    (∀ k : Nat, spVal s + 1 = k → k ≤ 255 →
      ∃ t, push v s = .ok t ∧ spVal t = k ∧ readSlot t k = v ∧
        SameRegsExcept [.sp] s t ∧ SameSlotsExcept k s t ∧
        t.jumped = s.jumped ∧ t.status = s.status ∧ t.out = s.out ∧ SameRecord s t) ∧
    (255 ≤ spVal s → push v s = .error .stackOverflow) ∧
    (spVal s < -1 → push v s = .error .stackUnderflow) ∧
    (∀ k : Nat, spVal s = k → k ≤ 255 → peek s = .ok (readSlot s k) ∧
      ∃ t, pop s = .ok (readSlot s k, t) ∧ spVal t = (k : Int) - 1 ∧
        SameRegsExcept [.sp] s t ∧ SameSlots s t ∧
        t.jumped = s.jumped ∧ t.status = s.status ∧ t.out = s.out ∧ SameRecord s t) ∧
    (spVal s < 0 → pop s = .error .stackUnderflow ∧ peek s = .error .stackUnderflow) ∧
    (255 < spVal s → pop s = .error .stackOverflow ∧ peek s = .error .stackOverflow)

/-- R32, a consequence: what is pushed is what `peek` sees and `pop` returns, and the pop restores SP. -/
def Obligations.PopReturnsWhatPushStored : Prop :=
  ∀ (v : Word) (s t : State), push v s = .ok t →
    peek t = .ok v ∧ ∃ u, pop t = .ok (v, u) ∧ spVal u = spVal s ∧
      ∀ k : Nat, (k : Int) ≤ spVal s → readSlot u k = readSlot s k

/-- R100 in the words of R32: the stack effect of an arithmetic instruction is two pops, right operand first, and a
push; it faults on the stack exactly when one of the two pops does. -/
def Obligations.ArithIsTwoPopsAndPush : Prop :=
  ∀ (sym : ArithSym) (s : State),
    (∀ (right left v : Word) (s1 s2 s3 t : State), pop s = .ok (right, s1) → pop s1 = .ok (left, s2) →
      arithResult sym left right = .ok v → push v s2 = .ok s3 → arith sym s = .ok t →
      spVal t = spVal s3 ∧ SameSlots s3 t ∧ readReg t .a = right ∧ readReg t .b = left ∧ readReg t .c = v) ∧
    (∀ c, c ≠ .divisionByZero →
      (arith sym s = .error c ↔
        pop s = .error c ∨ ∃ right s1, pop s = .ok (right, s1) ∧ pop s1 = .error c))

/-- PSH and then POP: the depth returns, and no element below the pushed one is disturbed (R91). -/
def Obligations.PshThenPopRestoresDepth : Prop :=
  ∀ (val : Word) (s : State), -1 ≤ spVal s → spVal s < 255 →
    ∃ t u, exec (.psh val) s = .next t ∧ exec .pop t = .next u ∧ spVal u = spVal s ∧
      SameRegsExcept [.ip] s u ∧ ∀ k : Nat, (k : Int) ≤ spVal s → readSlot u k = readSlot s k

/-- SET rm,v and then MOV rm,rn leaves rn equal to v (R120). IP is left out: each of the two advances it. -/
def Obligations.SetThenMovDeliversValue : Prop :=
  ∀ (rm rn : Reg) (v : Word) (s : State), rm ≠ .ip → rn ≠ .ip →
    ∃ t u, exec (.set rm v) s = .next t ∧ exec (.mov rm rn) t = .next u ∧ readReg u rn = v ∧ readReg u rm = v

/-! ### Fetch and decode stages (R71, R72, R80) -/

/-- R71 with R80: a negative IP faults with `FOP` = −1; an IP at or beyond `PROG_LEN` ends the run, only `status`
changing; else the word at IP is the opcode word that the decode stage reads. That the step which ends `Exhausted`
leaves `J` false is the model's reading (log entry 7, DEDUCED): R71 and R80 clear `J` at the start of every step, and
R71's "nothing else changes" is read as nothing after that. -/
def Obligations.FetchStageByIpRange : Prop :=
  ∀ s : State, s.status = .running →
    (ipVal s < 0 → ∃ t, step s = .next t ∧ FaultTaken .outOfRangeJump (wrap (-1)) s t) ∧
    ((progLen s : Int) ≤ ipVal s → ∃ t, step s = .next t ∧ t.status = .exhausted ∧ t.jumped = false ∧
      SameRegsExcept [] s t ∧ SameSlots s t ∧ t.out = s.out ∧ SameRecord s t) ∧
    (0 ≤ ipVal s → ipVal s < progLen s → ∃ op, progRead s (ipVal s) = some op ∧
      fetch s = match decode op (s.prog.drop ((ipVal s).toNat + 1)) with
        | .error e => .fault (decodeCause e) op
        | .ok i => .instr i)

/-- A step runs the decoded instruction: when the words at IP decode to `i`, the step is `exec i`, which does the
advance and status stages itself. -/
def Obligations.StepRunsDecodedInstruction : Prop :=
  ∀ (s : State) (op : Word) (i : Instr), s.status = .running → progRead s (ipVal s) = some op →
    decode op (s.prog.drop ((ipVal s).toNat + 1)) = .ok i → step s = exec i s

/-- Where the program holds the words of an instruction from IP on, the step runs that instruction (R50, R80). -/
def Obligations.StepRunsEncodedWords : Prop :=
  ∀ (s : State) (i : Instr), s.status = .running → 0 ≤ ipVal s →
    (∀ (j : Nat) (w : Word), (encode i)[j]? = some w → progRead s (ipVal s + j) = some w) → step s = exec i s

/-- R57, R162: an opcode word outside 0..15 faults. -/
def Obligations.UnknownOpcodeFaults : Prop :=
  ∀ (s : State) (op : Word), s.status = .running → progRead s (ipVal s) = some op →
    (op.toInt < 0 ∨ 15 < op.toInt) → ∃ t, step s = .next t ∧ FaultTaken .unknownOpcode op s t

/-- R58, R167: an operand word at or beyond the end of the program faults, before any other check but the opcode's. -/
def Obligations.TruncatedOperandFaults : Prop :=
  ∀ (s : State) (o : Opcode), s.status = .running → progRead s (ipVal s) = some (opcodeWord o) → 0 < width o →
    (progLen s : Int) - 1 < ipVal s + width o →
    ∃ t, step s = .next t ∧ FaultTaken .truncatedOperand (opcodeWord o) s t

/-- R54, R168: a register operand word outside 0..11 faults when all operand words are present. -/
def Obligations.InvalidRegisterFaults : Prop :=
  ∀ (s : State) (o : Opcode) (j : Nat) (w : Word), s.status = .running →
    progRead s (ipVal s) = some (opcodeWord o) → ipVal s + width o ≤ (progLen s : Int) - 1 →
    j ∈ registerPositions o → progRead s (ipVal s + j) = some w → NotRegister w →
    ∃ t, step s = .next t ∧ FaultTaken .invalidRegister (opcodeWord o) s t

/-! ### Rules about every step -/

/-- R181: in `Running` the step is total. Two clauses are the model's readings, both DEDUCED: a fault, which R181 lists
beside a next state, is itself a next state in `Faulted` (log entry 5, from R171), and a terminal state, of which R76
says that the engine takes no step, answers itself (log entry 8). -/
def Obligations.StepIsTotal : Prop := ∀ s : State, ∃ t, step s = .next t

/-- R76: in a terminal state no state changes, for any number of steps. -/
def Obligations.TerminalStatesNeverChange : Prop :=
  ∀ (k : Nat) (s t : State), Terminal s → Steps k s t → t = s

/-- R171, R172: every step that ends in `Faulted` records cause, IP and opcode word (−1 where none was fetched) and
changes nothing else. -/
def Obligations.FaultsArePrecise : Prop :=
  ∀ s t : State, s.status = .running → step s = .next t → t.status = .faulted →
    ∃ c op, FaultTaken c op s t ∧ ((ipVal s < 0 ∧ op = wrap (-1)) ∨ progRead s (ipVal s) = some op)

/-- R160, column "raised by": which opcode words each cause comes with. -/
def Obligations.FaultCauseMatchesOpcode : Prop :=
  ∀ s t : State, s.status = .running → step s = .next t → t.status = .faulted →
    ∃ c, t.fcause = some c ∧ fopPossible c t.fop

/-- R160: the cause codes. -/
def Obligations.CauseCodesAsTabled : Prop :=
  causeCode none = 0 ∧ causeCode (some .unknownOpcode) = 1 ∧ causeCode (some .stackOverflow) = 2 ∧
  causeCode (some .stackUnderflow) = 3 ∧ causeCode (some .divisionByZero) = 4 ∧
  causeCode (some .outOfRangeJump) = 5 ∧ causeCode (some .truncatedOperand) = 6 ∧
  causeCode (some .invalidRegister) = 7

/-- R19: from `Running`, HLT and only HLT leads to `Halted`, and the fetch stage's end of program and only that leads
to `Exhausted`. -/
def Obligations.RunEndsOnlyByItsRule : Prop :=
  ∀ s t : State, s.status = .running → step s = .next t →
    (t.status = .halted ↔ fetch s = .instr .hlt) ∧ (t.status = .exhausted ↔ fetch s = .exhausted)

/-- R20, R143: after a step from `Running`, `J` is true exactly when the step was an IF or IFN whose branch was
taken. -/
def Obligations.JumpedExactlyByTakenBranch : Prop :=
  ∀ s t : State, s.status = .running → step s = .next t →
    (t.jumped = true ↔ ∃ (rm : Reg) (val target : Word), 0 ≤ target.toInt ∧ target.toInt < progLen s ∧
      ((fetch s = .instr (.ifEq rm val target) ∧ readReg s rm = val) ∨
       (fetch s = .instr (.ifNe rm val target) ∧ readReg s rm ≠ val)))

/-- R15: after an instruction of width `w` executes without fault, no branch being taken and IP not being its
destination, IP is `p + 1 + w`, wrapped. -/
def Obligations.IpAdvancesPastOperands : Prop :=
  ∀ (s t : State) (i : Instr), s.status = .running → fetch s = .instr i → step s = .next t →
    t.status ≠ .faulted → t.jumped = false → destination i ≠ some .ip →
    readReg t .ip = wrap (ipVal s + 1 + width i.opcode)

/-- R12, R13: a register other than A, B, C, IP and SP changes only when MOV, SET or GPT names it as destination, and
A, B and C change otherwise only by ADD, MUL, DIV and SUB. -/
def Obligations.RegistersChangeOnlyAsNamed : Prop :=
  ∀ (s t : State) (r : Reg), step s = .next t → NotDestination r s → r ≠ .ip → r ≠ .sp →
    (r = .a ∨ r = .b ∨ r = .c →
      ∀ i, Executes i s → i ≠ .add ∧ i ≠ .mul ∧ i ≠ .div ∧ i ≠ .sub) →
    readReg t r = readReg s r

/-- R36: a step writes at most one stack slot, and that at `x[SP] + 1` or `x[SP] − 1`. -/
def Obligations.StepWritesAtMostOneSlot : Prop :=
  ∀ s t : State, step s = .next t →
    SameSlots s t ∨
    ∃ k : Nat, ((k : Int) = spVal s + 1 ∨ (k : Int) = spVal s - 1) ∧ k ≤ 255 ∧ SameSlotsExcept k s t

/-- R26 d: `OUT` only grows, by at most one event a step (R22). -/
def Obligations.OutOnlyGrows : Prop :=
  ∀ s t : State, step s = .next t → ∃ es : List Event, t.out = s.out ++ es ∧ es.length ≤ 1

/-- R41: every fetch of an index during a run returns the same word. -/
def Obligations.ProgramNeverChanges : Prop :=
  ∀ (k : Nat) (s t : State), Steps k s t → progLen t = progLen s ∧ ∀ i, progRead t i = progRead s i

/-! ### Invariants (R26) -/

/-- Every step keeps `MachineInv`: the stack storage's canonical form, the agreement of status and fault record, the marks of
a run's end, and that `J` means a jump into the program. -/
def Obligations.StepKeepsInvariant : Prop :=
  ∀ s t : State, MachineInv s → step s = .next t → MachineInv t

/-- `MachineInv` holds right after reset, for every program. -/
def Obligations.InvariantHoldsAfterReset : Prop :=
  MachineInv State.reset ∧ ∀ (prog : List Word) (s : State), MachineInv (resetInput prog s)

/-- R26 e, one step: if the step executes no MOV, SET or GPT with destination SP, then −1 ≤ `x[SP]` ≤ 255 and every
slot from 0 to `x[SP]` has been written since reset. -/
def Obligations.StepKeepsStackSound : Prop :=
  ∀ s t : State, StackSound s → NotDestination .sp s → step s = .next t → StackSound t

/-- R26 f, one step: if the step executes no MOV, SET or GPT with destination IP, then 0 ≤ `x[IP]` ≤ `PROG_LEN`. -/
def Obligations.StepKeepsIpInRange : Prop :=
  ∀ s t : State, IpInRange s → NotDestination .ip s → step s = .next t → IpInRange t

/-- The premises of the two statements above hold right after reset. -/
def Obligations.StackAndIpInRangeAfterReset : Prop :=
  ∀ (prog : List Word) (s : State), StackSound (resetInput prog s) ∧
    (prog.length ≤ 2147483647 → IpInRange (resetInput prog s))

/-- R26 e, whole runs: a run of `k` steps from reset, of whatever program, ends with a sound stack if no instruction
executed so far, by one of those `k` steps, was a MOV, SET or GPT with destination SP. What stands in the program where
a terminal state's IP points is not executed (R76) and does not count. -/
def Obligations.StackSoundAlongRuns : Prop :=
  ∀ (prog : List Word) (s : State) (k : Nat) (t : State),
    (∀ (j : Nat) (u : State), j < k → Steps j (resetInput prog s) u → NotDestination .sp u) →
    Steps k (resetInput prog s) t → StackSound t

/-- R24: what lies above SP, `STACK_INIT` and stale words, is unobservable to a step that does not write SP directly:
two states that agree up to the top of the stack go to states that agree up to the top of the stack. -/
def Obligations.SlotsAboveTopUnobservable : Prop :=
  ∀ s1 s2 t1 t2 : State, AgreeUpToTop s1 s2 → NotDestination .sp s1 →
    step s1 = .next t1 → step s2 = .next t2 → AgreeUpToTop t1 t2

/-! ### Reset and ports (R24, R190, R191, R196) -/

/-- R24, R190: reset from any state puts every piece of state to its reset value and writes no slot. Which draw of
`STACK_INIT` the slots then hold is the model's own (log entry 2). -/
def Obligations.ResetValuesAsTabled : Prop :=
  ∀ (prog : List Word) (s : State),
    (∀ r, r ≠ .sp → readReg (resetInput prog s) r = 0) ∧ spVal (resetInput prog s) = -1 ∧
    (resetInput prog s).status = .running ∧ (resetInput prog s).jumped = false ∧
    causeCode (resetInput prog s).fcause = 0 ∧ (resetInput prog s).fop = 0 ∧ (resetInput prog s).fip = 0 ∧
    (resetInput prog s).out = [] ∧ (resetInput prog s).prog = prog ∧
    (∀ k, ¬ Written (resetInput prog s) k) ∧
    (∀ k, readSlot (resetInput prog s) k = Config.stackInit (s.draw + 1) k)

/-- R196: the status and fault-record outputs, and the debug read port, valid when `status ≠ Running`. -/
def Obligations.PortsShowState : Prop :=
  ∀ s : State,
    (s.status = .running → statusOutput s = 0) ∧ (s.status = .halted → statusOutput s = 1) ∧
    (s.status = .exhausted → statusOutput s = 2) ∧ (s.status = .faulted → statusOutput s = 3) ∧
    faultRecordOutput s = ⟨causeCode s.fcause, s.fip, s.fop⟩ ∧
    (s.status ≠ .running → ∀ r, debugReadReg s r = some (readReg s r)) ∧
    (s.status ≠ .running → ∀ k : Nat, k ≤ 255 → debugReadSlot s k = some (readSlot s k))
end

