-- ==== Sys2Proof/Laws/Decode.lean ====
section
/-! SUPPORT. The small lemmas of the opcode and register tables, and the decoder's outcome said once. -/

namespace Sys2Proof

/-! ### The two tables (R11, R52) -/

theorem opcodes_length : opcodes.length = Config.nops := rfl

theorem regs_length : regs.length = Config.nregs := rfl

theorem mem_opcodes (o : Opcode) : o ∈ opcodes := by cases o <;> decide

theorem mem_regs (r : Reg) : r ∈ regs := by cases r <;> decide

theorem width_le_maxOperands (o : Opcode) : width o ≤ Config.maxOperands := by cases o <;> decide

theorem opcodeOf_opcodeWord (o : Opcode) : opcodeOf (opcodeWord o) = some o := by cases o <;> decide

theorem regOf_regWord (r : Reg) : regOf (regWord r) = some r := by cases r <;> decide

/-- The opcode map read both ways: a word selects `o` exactly when it is `o`'s word (R52). -/
theorem opcodeOf_eq_some {w : Word} {o : Opcode} : opcodeOf w = some o ↔ w = opcodeWord o := by
  constructor
  · intro h
    have h' := List.find?_some (p := fun o => decide (opcodeWord o = w)) h
    exact (of_decide_eq_true h').symm
  · rintro rfl; exact opcodeOf_opcodeWord o

theorem regOf_eq_some {w : Word} {r : Reg} : regOf w = some r ↔ w = regWord r := by
  constructor
  · intro h
    have h' := List.find?_some (p := fun r => decide (regWord r = w)) h
    exact (of_decide_eq_true h').symm
  · rintro rfl; exact regOf_regWord r

/-- The value of an opcode word is the opcode's number. -/
theorem toInt_opcodeWord (o : Opcode) : (opcodeWord o).toInt = opcodeNumber o := by cases o <;> decide

theorem toInt_regWord (r : Reg) : (regWord r).toInt = regNumber r := by cases r <;> decide

theorem opcodeNumber_lt (o : Opcode) : opcodeNumber o < Config.nops := by cases o <;> decide

theorem regNumber_lt (r : Reg) : regNumber r < Config.nregs := by cases r <;> decide

/-- Two words with the same value are the same word (R7). -/
theorem word_ext {v w : Word} (h : v.toInt = w.toInt) : v = w := BitVec.eq_of_toInt_eq h

/-- R57: the words that select no opcode are those outside 0..15. -/
theorem opcodeOf_eq_none {w : Word} : opcodeOf w = none ↔ w.toInt < 0 ∨ 15 < w.toInt := by
  constructor
  · intro h
    by_contra hn
    have number_onto : ∀ n : Fin 16, ∃ o ∈ opcodes, opcodeNumber o = n := by decide
    obtain ⟨o, -, ho⟩ := number_onto ⟨w.toInt.toNat, by omega⟩
    have hw : w = opcodeWord o := word_ext (by rw [toInt_opcodeWord, ho]; simp only; omega)
    rw [hw, opcodeOf_opcodeWord] at h
    cases h
  · intro h
    cases ho : opcodeOf w with
    | none => rfl
    | some o =>
      obtain rfl := opcodeOf_eq_some.1 ho
      have := opcodeNumber_lt o
      simp only [Config.nops] at this
      rw [toInt_opcodeWord] at h
      omega

/-- R54: the words that name no register are those outside 0..11. -/
theorem regOf_eq_none {w : Word} : regOf w = none ↔ w.toInt < 0 ∨ 11 < w.toInt := by
  constructor
  · intro h
    by_contra hn
    have number_onto : ∀ n : Fin 12, ∃ r ∈ regs, regNumber r = n := by decide
    obtain ⟨r, -, hr⟩ := number_onto ⟨w.toInt.toNat, by omega⟩
    have hw : w = regWord r := word_ext (by rw [toInt_regWord, hr]; simp only; omega)
    rw [hw, regOf_regWord] at h
    cases h
  · intro h
    cases hr : regOf w with
    | none => rfl
    | some r =>
      obtain rfl := regOf_eq_some.1 hr
      have := regNumber_lt r
      simp only [Config.nregs] at this
      rw [toInt_regWord] at h
      omega

theorem regOperand_eq_ok {w : Word} {r : Reg} : regOperand w = .ok r ↔ w = regWord r := by
  rw [← regOf_eq_some]
  unfold regOperand
  cases regOf w <;> simp

theorem regOperand_eq_error {w : Word} {e : DecodeError} :
    regOperand w = .error e ↔ regOf w = none ∧ e = .invalidRegister := by
  unfold regOperand
  cases regOf w <;> simp [eq_comm]

@[simp] theorem regOperand_regWord (r : Reg) : regOperand (regWord r) = .ok r := regOperand_eq_ok.2 rfl

/-- The three outcomes of the decode stage, in the order of its checks (R60, R72). -/
theorem decode_cases (op : Word) (rest : List Word) :
    (opcodeOf op = none ∧ decode op rest = .error .unknownOpcode) ∨
    (∃ o, opcodeOf op = some o ∧ rest.length < width o ∧ decode op rest = .error .truncatedOperand) ∨
    (∃ o, opcodeOf op = some o ∧ width o ≤ rest.length ∧
      decode op rest = decodeOperands o (rest.getD 0 0) (rest.getD 1 0) (rest.getD 2 0)) := by
  unfold decode
  cases h : opcodeOf op with
  | none => exact .inl ⟨rfl, rfl⟩
  | some o =>
    by_cases hw : rest.length < width o
    · exact .inr (.inl ⟨o, rfl, hw, by simp [hw]⟩)
    · exact .inr (.inr ⟨o, rfl, by omega, by simp [hw]⟩)

/-- What the operands of an opcode decode to is an instruction of that opcode. -/
theorem opcode_of_decodeOperands {o : Opcode} {o1 o2 o3 : Word} {i : Instr}
    (h : decodeOperands o o1 o2 o3 = .ok i) : i.opcode = o := by
  cases o
  case mov =>
    cases h1 : regOperand o1 <;> cases h2 : regOperand o2 <;>
      simp only [decodeOperands, h1, h2, bind, Except.bind, pure, Except.pure, reduceCtorEq, Except.ok.injEq] at h
    subst h; rfl
  case set | log | ifEq | ifNe | gld | gpt =>
    cases h1 : regOperand o1 <;>
      simp only [decodeOperands, h1, bind, Except.bind, pure, Except.pure, reduceCtorEq, Except.ok.injEq] at h
    subst h; rfl
  all_goals
    simp only [decodeOperands, Except.ok.injEq] at h
    subst h; rfl

/-- A decoded instruction's opcode word is the word it was decoded from. -/
theorem opcodeWord_of_decode {op : Word} {rest : List Word} {i : Instr} (h : decode op rest = .ok i) :
    op = opcodeWord i.opcode := by
  rcases decode_cases op rest with ⟨-, h'⟩ | ⟨_, -, -, h'⟩ | ⟨o, ho, -, h'⟩
  · rw [h'] at h; cases h
  · rw [h'] at h; cases h
  · rw [h'] at h
    rw [opcode_of_decodeOperands h]
    exact opcodeOf_eq_some.1 ho

end Sys2Proof
end

