-- ==== Sys2Proof/Laws/State.lean ====
section
/-! SUPPORT. One lemma for each field and each update of `State`, and for reading a register or a slot after an update,
so that no proof unfolds a record update. -/

namespace Sys2Proof.Machine

/-! ### `writeReg` -/

@[simp] theorem writeReg_stack (r : Reg) (v : Word) (s : State) : (writeReg r v s).stack = s.stack := rfl
@[simp] theorem writeReg_status (r : Reg) (v : Word) (s : State) : (writeReg r v s).status = s.status := rfl
@[simp] theorem writeReg_jumped (r : Reg) (v : Word) (s : State) : (writeReg r v s).jumped = s.jumped := rfl
@[simp] theorem writeReg_fcause (r : Reg) (v : Word) (s : State) : (writeReg r v s).fcause = s.fcause := rfl
@[simp] theorem writeReg_fop (r : Reg) (v : Word) (s : State) : (writeReg r v s).fop = s.fop := rfl
@[simp] theorem writeReg_fip (r : Reg) (v : Word) (s : State) : (writeReg r v s).fip = s.fip := rfl
@[simp] theorem writeReg_out (r : Reg) (v : Word) (s : State) : (writeReg r v s).out = s.out := rfl
@[simp] theorem writeReg_prog (r : Reg) (v : Word) (s : State) : (writeReg r v s).prog = s.prog := rfl
@[simp] theorem writeReg_draw (r : Reg) (v : Word) (s : State) : (writeReg r v s).draw = s.draw := rfl
@[simp] theorem writeReg_regs (r : Reg) (v : Word) (s : State) : (writeReg r v s).regs = s.regs.write r v := rfl

/-! ### `writeSlot` -/

@[simp] theorem writeSlot_regs (k : Nat) (v : Word) (s : State) : (writeSlot k v s).regs = s.regs := rfl
@[simp] theorem writeSlot_status (k : Nat) (v : Word) (s : State) : (writeSlot k v s).status = s.status := rfl
@[simp] theorem writeSlot_jumped (k : Nat) (v : Word) (s : State) : (writeSlot k v s).jumped = s.jumped := rfl
@[simp] theorem writeSlot_fcause (k : Nat) (v : Word) (s : State) : (writeSlot k v s).fcause = s.fcause := rfl
@[simp] theorem writeSlot_fop (k : Nat) (v : Word) (s : State) : (writeSlot k v s).fop = s.fop := rfl
@[simp] theorem writeSlot_fip (k : Nat) (v : Word) (s : State) : (writeSlot k v s).fip = s.fip := rfl
@[simp] theorem writeSlot_out (k : Nat) (v : Word) (s : State) : (writeSlot k v s).out = s.out := rfl
@[simp] theorem writeSlot_prog (k : Nat) (v : Word) (s : State) : (writeSlot k v s).prog = s.prog := rfl
@[simp] theorem writeSlot_draw (k : Nat) (v : Word) (s : State) : (writeSlot k v s).draw = s.draw := rfl
@[simp] theorem writeSlot_stack (k : Nat) (v : Word) (s : State) : (writeSlot k v s).stack = Memory.write s.stack k v := rfl

/-! ### `emit` -/

@[simp] theorem emit_regs (e : Event) (s : State) : (emit e s).regs = s.regs := rfl
@[simp] theorem emit_stack (e : Event) (s : State) : (emit e s).stack = s.stack := rfl
@[simp] theorem emit_status (e : Event) (s : State) : (emit e s).status = s.status := rfl
@[simp] theorem emit_jumped (e : Event) (s : State) : (emit e s).jumped = s.jumped := rfl
@[simp] theorem emit_fcause (e : Event) (s : State) : (emit e s).fcause = s.fcause := rfl
@[simp] theorem emit_fop (e : Event) (s : State) : (emit e s).fop = s.fop := rfl
@[simp] theorem emit_fip (e : Event) (s : State) : (emit e s).fip = s.fip := rfl
@[simp] theorem emit_prog (e : Event) (s : State) : (emit e s).prog = s.prog := rfl
@[simp] theorem emit_draw (e : Event) (s : State) : (emit e s).draw = s.draw := rfl
@[simp] theorem emit_out (e : Event) (s : State) : (emit e s).out = s.out ++ [e] := rfl

/-! ### `clearJumped` -/

@[simp] theorem clearJumped_regs (s : State) : (clearJumped s).regs = s.regs := rfl
@[simp] theorem clearJumped_stack (s : State) : (clearJumped s).stack = s.stack := rfl
@[simp] theorem clearJumped_status (s : State) : (clearJumped s).status = s.status := rfl
@[simp] theorem clearJumped_fcause (s : State) : (clearJumped s).fcause = s.fcause := rfl
@[simp] theorem clearJumped_fop (s : State) : (clearJumped s).fop = s.fop := rfl
@[simp] theorem clearJumped_fip (s : State) : (clearJumped s).fip = s.fip := rfl
@[simp] theorem clearJumped_out (s : State) : (clearJumped s).out = s.out := rfl
@[simp] theorem clearJumped_prog (s : State) : (clearJumped s).prog = s.prog := rfl
@[simp] theorem clearJumped_draw (s : State) : (clearJumped s).draw = s.draw := rfl
@[simp] theorem clearJumped_jumped (s : State) : (clearJumped s).jumped = false := rfl

/-! ### `setJumped` -/

@[simp] theorem setJumped_regs (s : State) : (setJumped s).regs = s.regs := rfl
@[simp] theorem setJumped_stack (s : State) : (setJumped s).stack = s.stack := rfl
@[simp] theorem setJumped_status (s : State) : (setJumped s).status = s.status := rfl
@[simp] theorem setJumped_fcause (s : State) : (setJumped s).fcause = s.fcause := rfl
@[simp] theorem setJumped_fop (s : State) : (setJumped s).fop = s.fop := rfl
@[simp] theorem setJumped_fip (s : State) : (setJumped s).fip = s.fip := rfl
@[simp] theorem setJumped_out (s : State) : (setJumped s).out = s.out := rfl
@[simp] theorem setJumped_prog (s : State) : (setJumped s).prog = s.prog := rfl
@[simp] theorem setJumped_draw (s : State) : (setJumped s).draw = s.draw := rfl
@[simp] theorem setJumped_jumped (s : State) : (setJumped s).jumped = true := rfl

/-! ### `exhaust` -/

@[simp] theorem exhaust_regs (s : State) : (exhaust s).regs = s.regs := rfl
@[simp] theorem exhaust_stack (s : State) : (exhaust s).stack = s.stack := rfl
@[simp] theorem exhaust_fcause (s : State) : (exhaust s).fcause = s.fcause := rfl
@[simp] theorem exhaust_fop (s : State) : (exhaust s).fop = s.fop := rfl
@[simp] theorem exhaust_fip (s : State) : (exhaust s).fip = s.fip := rfl
@[simp] theorem exhaust_out (s : State) : (exhaust s).out = s.out := rfl
@[simp] theorem exhaust_prog (s : State) : (exhaust s).prog = s.prog := rfl
@[simp] theorem exhaust_draw (s : State) : (exhaust s).draw = s.draw := rfl
@[simp] theorem exhaust_jumped (s : State) : (exhaust s).jumped = false := rfl
@[simp] theorem exhaust_status (s : State) : (exhaust s).status = .exhausted := rfl

/-! ### `raise` -/

@[simp] theorem raise_regs (c : FaultCause) (op : Word) (s : State) : (raise c op s).regs = s.regs := rfl
@[simp] theorem raise_stack (c : FaultCause) (op : Word) (s : State) : (raise c op s).stack = s.stack := rfl
@[simp] theorem raise_out (c : FaultCause) (op : Word) (s : State) : (raise c op s).out = s.out := rfl
@[simp] theorem raise_prog (c : FaultCause) (op : Word) (s : State) : (raise c op s).prog = s.prog := rfl
@[simp] theorem raise_draw (c : FaultCause) (op : Word) (s : State) : (raise c op s).draw = s.draw := rfl
@[simp] theorem raise_fcause (c : FaultCause) (op : Word) (s : State) : (raise c op s).fcause = some c := rfl
@[simp] theorem raise_fip (c : FaultCause) (op : Word) (s : State) : (raise c op s).fip = readReg s .ip := rfl
@[simp] theorem raise_fop (c : FaultCause) (op : Word) (s : State) : (raise c op s).fop = op := rfl
@[simp] theorem raise_status (c : FaultCause) (op : Word) (s : State) : (raise c op s).status = .faulted := rfl
@[simp] theorem raise_jumped (c : FaultCause) (op : Word) (s : State) : (raise c op s).jumped = false := rfl

/-! ### Reading a register after an update -/

/-- A write replaces its register and no other (R11). -/
theorem RegFile.read_write (x : RegFile) (r q : Reg) (v : Word) :
    (x.write r v).read q = if q = r then v else x.read q := by
  cases r <;> cases q <;> rfl

@[simp] theorem readReg_writeReg (r q : Reg) (v : Word) (s : State) :
    readReg (writeReg r v s) q = if q = r then v else readReg s q :=
  RegFile.read_write s.regs r q v

/-- Two Register Files that read alike are equal: a Register File holds its 12 words and nothing else. -/
theorem RegFile.ext_read {x y : RegFile} (h : ∀ r, x.read r = y.read r) : x = y := by
  cases x; cases y
  simpa using ⟨h .a, h .b, h .c, h .d, h .e, h .f, h .g, h .h, h .ex, h .exa, h .ip, h .sp⟩

@[simp] theorem readReg_writeSlot (k : Nat) (v : Word) (s : State) (q : Reg) : readReg (writeSlot k v s) q = readReg s q := rfl
@[simp] theorem readReg_emit (e : Event) (s : State) (q : Reg) : readReg (emit e s) q = readReg s q := rfl
@[simp] theorem readReg_clearJumped (s : State) (q : Reg) : readReg (clearJumped s) q = readReg s q := rfl
@[simp] theorem readReg_setJumped (s : State) (q : Reg) : readReg (setJumped s) q = readReg s q := rfl
@[simp] theorem readReg_exhaust (s : State) (q : Reg) : readReg (exhaust s) q = readReg s q := rfl
@[simp] theorem readReg_raise (c : FaultCause) (op : Word) (s : State) (q : Reg) : readReg (raise c op s) q = readReg s q := rfl

/-! ### IP, SP and the program after an update -/

@[simp] theorem ipVal_writeSlot (k : Nat) (v : Word) (s : State) : ipVal (writeSlot k v s) = ipVal s := rfl
@[simp] theorem ipVal_emit (e : Event) (s : State) : ipVal (emit e s) = ipVal s := rfl
@[simp] theorem ipVal_clearJumped (s : State) : ipVal (clearJumped s) = ipVal s := rfl
@[simp] theorem ipVal_setJumped (s : State) : ipVal (setJumped s) = ipVal s := rfl
@[simp] theorem ipVal_exhaust (s : State) : ipVal (exhaust s) = ipVal s := rfl
@[simp] theorem ipVal_raise (c : FaultCause) (op : Word) (s : State) : ipVal (raise c op s) = ipVal s := rfl
@[simp] theorem spVal_writeSlot (k : Nat) (v : Word) (s : State) : spVal (writeSlot k v s) = spVal s := rfl
@[simp] theorem spVal_emit (e : Event) (s : State) : spVal (emit e s) = spVal s := rfl
@[simp] theorem spVal_clearJumped (s : State) : spVal (clearJumped s) = spVal s := rfl
@[simp] theorem spVal_setJumped (s : State) : spVal (setJumped s) = spVal s := rfl
@[simp] theorem spVal_exhaust (s : State) : spVal (exhaust s) = spVal s := rfl
@[simp] theorem spVal_raise (c : FaultCause) (op : Word) (s : State) : spVal (raise c op s) = spVal s := rfl
@[simp] theorem progLen_writeReg (r : Reg) (v : Word) (s : State) : progLen (writeReg r v s) = progLen s := rfl
@[simp] theorem progLen_writeSlot (k : Nat) (v : Word) (s : State) : progLen (writeSlot k v s) = progLen s := rfl
@[simp] theorem progLen_emit (e : Event) (s : State) : progLen (emit e s) = progLen s := rfl
@[simp] theorem progLen_clearJumped (s : State) : progLen (clearJumped s) = progLen s := rfl
@[simp] theorem progLen_setJumped (s : State) : progLen (setJumped s) = progLen s := rfl
@[simp] theorem progLen_exhaust (s : State) : progLen (exhaust s) = progLen s := rfl
@[simp] theorem progLen_raise (c : FaultCause) (op : Word) (s : State) : progLen (raise c op s) = progLen s := rfl

@[simp] theorem ipVal_writeReg (r : Reg) (v : Word) (s : State) :
    ipVal (writeReg r v s) = if r = .ip then v.toInt else ipVal s := by
  cases r <;> rfl

@[simp] theorem spVal_writeReg (r : Reg) (v : Word) (s : State) :
    spVal (writeReg r v s) = if r = .sp then v.toInt else spVal s := by
  cases r <;> rfl

/-! ### Reading a slot after an update of anything but the stack -/

@[simp] theorem readSlot_writeReg (r : Reg) (v : Word) (s : State) (j : Nat) : readSlot (writeReg r v s) j = readSlot s j := rfl
@[simp] theorem readSlot_emit (e : Event) (s : State) (j : Nat) : readSlot (emit e s) j = readSlot s j := rfl
@[simp] theorem readSlot_clearJumped (s : State) (j : Nat) : readSlot (clearJumped s) j = readSlot s j := rfl
@[simp] theorem readSlot_setJumped (s : State) (j : Nat) : readSlot (setJumped s) j = readSlot s j := rfl
@[simp] theorem readSlot_exhaust (s : State) (j : Nat) : readSlot (exhaust s) j = readSlot s j := rfl
@[simp] theorem readSlot_raise (c : FaultCause) (op : Word) (s : State) (j : Nat) : readSlot (raise c op s) j = readSlot s j := rfl

end Sys2Proof.Machine
end

