-- ==== Sys2Proof/Laws/Memory.lean ====
section
/-! SUPPORT. The laws of the Operand Stack's storage: read after write, and that every operation keeps the canonical
form. -/

namespace Sys2Proof.Machine

/-- Read after write on the listed words: the written slot holds the word, every other slot is as before. -/
theorem Memory.find_write (m : Memory) (k j : Nat) (v : Word) :
    Memory.find (Memory.write m k v) j = if j = k then some v else Memory.find m j := by
  induction m with
  | nil => simp [Memory.write, Memory.find, eq_comm]
  | cons p rest ih =>
    obtain ⟨i, w⟩ := p
    unfold Memory.write
    by_cases hlt : k < i
    · rw [if_pos hlt, Memory.find]
      simp only [eq_comm]
    · rw [if_neg hlt]
      by_cases heq : i = k
      · subst heq
        rw [if_pos rfl, Memory.find, Memory.find]
        by_cases hj : i = j
        · simp [hj]
        · simp [hj, Ne.symm hj]
      · rw [if_neg heq, Memory.find, Memory.find, ih]
        by_cases hj : j = k
        · simp [hj, heq]
        · simp [hj]

/-- Read after write (R18, R39). -/
theorem Memory.read_write (m : Memory) (draw k j : Nat) (v : Word) :
    Memory.read (Memory.write m k v) draw j = if j = k then v else Memory.read m draw j := by
  unfold Memory.read
  rw [Memory.find_write]
  split_ifs <;> rfl

/-- The slots listed after a write are the written one and those listed before. -/
theorem Memory.mem_write {m : Memory} {k : Nat} {v : Word} {p : Nat × Word} (h : p ∈ Memory.write m k v) :
    p = (k, v) ∨ p ∈ m := by
  induction m with
  | nil => simpa [Memory.write] using h
  | cons q rest ih =>
    obtain ⟨i, w⟩ := q
    unfold Memory.write at h
    split_ifs at h with hlt heq
    · simpa using h
    · rcases List.mem_cons.1 h with h | h
      · exact .inl h
      · exact .inr (List.mem_cons_of_mem _ h)
    · rcases List.mem_cons.1 h with h | h
      · exact .inr (h ▸ List.mem_cons_self ..)
      · exact (ih h).imp id (List.mem_cons_of_mem _)

/-- A write inside 0..255 keeps the canonical form. -/
theorem Memory.wf_write {m : Memory} {k : Nat} {v : Word} (h : Memory.wf m) (hk : k < Config.stackCap) :
    Memory.wf (Memory.write m k v) := by
  refine ⟨?_, fun p hp => ?_⟩
  · obtain ⟨hp, -⟩ := h
    induction m with
    | nil => simp [Memory.write]
    | cons q rest ih =>
      obtain ⟨i, w⟩ := q
      obtain ⟨hhead, hrest⟩ := List.pairwise_cons.1 hp
      unfold Memory.write
      split_ifs with hlt heq
      · refine List.pairwise_cons.2 ⟨fun p hp' => ?_, hp⟩
        rcases List.mem_cons.1 hp' with rfl | hp'
        · exact hlt
        · exact lt_trans hlt (hhead p hp')
      · subst heq
        exact List.pairwise_cons.2 ⟨hhead, hrest⟩
      · refine List.pairwise_cons.2 ⟨fun p hp' => ?_, ih hrest⟩
        rcases Memory.mem_write hp' with rfl | hp'
        · show i < k
          omega
        · exact hhead p hp'
  · rcases Memory.mem_write hp with rfl | hp
    · exact hk
    · exact h.2 p hp

/-- The empty storage, that of a reset, has the canonical form. -/
theorem Memory.wf_nil : Memory.wf [] := by simp [Memory.wf]

theorem reset_stack_wf (prog : List Word) (draw : Nat) : Memory.wf (State.resetWith prog draw).stack := Memory.wf_nil

@[simp] theorem readSlot_writeSlot (k j : Nat) (v : Word) (s : State) :
    readSlot (writeSlot k v s) j = if j = k then v else readSlot s j :=
  Memory.read_write s.stack s.draw k j v

end Sys2Proof.Machine
end

