-- ==== Sys2Proof/Laws/Ops.lean ====
section
/-! SUPPORT. What each shared operation can do, said once: when it succeeds and with what, and when it faults and with
which cause. Proofs cite these and unfold no operation. -/

namespace Sys2Proof.Machine

/-! ### Words -/

/-- `wrap` of a value in the word range has that value (R7). -/
theorem toInt_wrap {v : Int} (hlo : -2147483648 ≤ v) (hhi : v ≤ 2147483647) : (wrap v).toInt = v := by
  unfold wrap
  rw [BitVec.toInt_ofInt]
  simp only [Int.bmod]
  split_ifs <;> omega

/-- Every word's value is in the word range (R6). -/
theorem word_range (w : Word) : -2147483648 ≤ w.toInt ∧ w.toInt ≤ 2147483647 := by
  have h1 := BitVec.le_toInt w
  have h2 := BitVec.toInt_lt (x := w)
  norm_num at h1 h2
  omega

/-- A word is the wrap of its value. -/
theorem wrap_toInt (w : Word) : wrap w.toInt = w := BitVec.ofInt_toInt

/-! ### `StackCheck` (R31) -/

theorem stackCheck_eq_ok {i : Int} {k : Nat} : stackCheck i = .ok k ↔ i = k ∧ k < 256 := by
  unfold stackCheck
  split_ifs <;> simp <;> omega

theorem stackCheck_eq_error {i : Int} {c : FaultCause} :
    stackCheck i = .error c ↔ (i < 0 ∧ c = .stackUnderflow) ∨ (255 < i ∧ c = .stackOverflow) := by
  unfold stackCheck
  split_ifs with h1 h2
  · have : ¬ 255 < i := by omega
    simp [h1, this, eq_comm]
  · simp [h1, h2, eq_comm]
  · simp [h1, h2]

/-- A slot index in 0..255 passes the check. -/
theorem stackCheck_natCast {k : Nat} (h : k < 256) : stackCheck (k : Int) = .ok k :=
  stackCheck_eq_ok.2 ⟨rfl, h⟩

theorem memRead_eq_ok {i : Int} {s : State} {v : Word} :
    memRead i s = .ok v ↔ ∃ k : Nat, i = k ∧ k < 256 ∧ v = readSlot s k := by
  unfold memRead
  cases h : stackCheck i with
  | error c =>
    simp only [reduceCtorEq, false_iff, not_exists]
    rintro k ⟨rfl, hk, -⟩
    rw [stackCheck_natCast hk] at h
    cases h
  | ok k =>
    obtain ⟨rfl, hk⟩ := stackCheck_eq_ok.1 h
    simp [hk, eq_comm]

theorem memRead_eq_error {i : Int} {s : State} {c : FaultCause} :
    memRead i s = .error c ↔ stackCheck i = .error c := by
  unfold memRead
  cases stackCheck i <;> simp

theorem memWrite_eq_ok {i : Int} {v : Word} {s t : State} :
    memWrite i v s = .ok t ↔ ∃ k : Nat, i = k ∧ k < 256 ∧ t = writeSlot k v s := by
  unfold memWrite
  cases h : stackCheck i with
  | error c =>
    simp only [reduceCtorEq, false_iff, not_exists]
    rintro k ⟨rfl, hk, -⟩
    rw [stackCheck_natCast hk] at h
    cases h
  | ok k =>
    obtain ⟨rfl, hk⟩ := stackCheck_eq_ok.1 h
    simp [hk, eq_comm]

theorem memWrite_eq_error {i : Int} {v : Word} {s : State} {c : FaultCause} :
    memWrite i v s = .error c ↔ stackCheck i = .error c := by
  unfold memWrite
  cases stackCheck i <;> simp

/-! ### `push`, `pop`, `peek` (R32) -/

/-- A successful push: slot `x[SP] + 1` exists, SP names it and it holds the word. -/
theorem push_eq_ok {v : Word} {s t : State} :
    push v s = .ok t ↔ ∃ k : Nat, spVal s + 1 = k ∧ k < 256 ∧ t = writeSlot k v (writeReg .sp (wrap k) s) := by
  unfold push
  simp only [memWrite_eq_ok]
  constructor
  · rintro ⟨k, hk, h, rfl⟩; exact ⟨k, hk, h, by rw [hk]⟩
  · rintro ⟨k, hk, h, rfl⟩; exact ⟨k, hk, h, by rw [hk]⟩

theorem push_eq_error {v : Word} {s : State} {c : FaultCause} :
    push v s = .error c ↔ stackCheck (spVal s + 1) = .error c := by
  simp [push, memWrite_eq_error]

/-- A successful pop: the slot at SP exists, its word is returned, and SP goes down by one. -/
theorem pop_eq_ok {s t : State} {v : Word} :
    pop s = .ok (v, t) ↔
      ∃ k : Nat, spVal s = k ∧ k < 256 ∧ v = readSlot s k ∧ t = writeReg .sp (wrap ((k : Int) - 1)) s := by
  simp only [pop]
  cases h : memRead (spVal s) s with
  | error c =>
    simp only [reduceCtorEq, false_iff, not_exists]
    rintro k ⟨hs, hk, hv, -⟩
    have h' : memRead (spVal s) s = .ok v := memRead_eq_ok.2 ⟨k, hs, hk, hv⟩
    rw [h] at h'
    cases h'
  | ok w =>
    obtain ⟨k, hs, hk, rfl⟩ := memRead_eq_ok.1 h
    simp only [hs, Except.ok.injEq, Prod.mk.injEq]
    constructor
    · rintro ⟨rfl, rfl⟩; exact ⟨k, rfl, hk, rfl, rfl⟩
    · rintro ⟨j, hj, -, rfl, rfl⟩
      obtain rfl : k = j := by exact_mod_cast hj
      exact ⟨rfl, rfl⟩

theorem pop_eq_error {s : State} {c : FaultCause} : pop s = .error c ↔ stackCheck (spVal s) = .error c := by
  simp only [pop]
  cases h : memRead (spVal s) s with
  | error d => rw [memRead_eq_error] at h; simp [h]
  | ok w =>
    obtain ⟨k, hs, hk, -⟩ := memRead_eq_ok.1 h
    simp [hs, stackCheck_natCast hk]

theorem discardTop_eq_ok {s t : State} :
    discardTop s = .ok t ↔ ∃ k : Nat, spVal s = k ∧ k < 256 ∧ t = writeReg .sp (wrap ((k : Int) - 1)) s := by
  unfold discardTop
  cases h : pop s with
  | error c =>
    have := pop_eq_error.1 h
    simp only [reduceCtorEq, false_iff, not_exists]
    rintro k ⟨hs, hk, -⟩
    rw [hs, stackCheck_natCast hk] at this
    cases this
  | ok p =>
    obtain ⟨v, u⟩ := p
    obtain ⟨k, hs, hk, -, rfl⟩ := pop_eq_ok.1 h
    simp only [Except.ok.injEq]
    constructor
    · rintro rfl; exact ⟨k, hs, hk, rfl⟩
    · rintro ⟨j, hj, -, rfl⟩
      obtain rfl : k = j := by omega
      rfl

theorem discardTop_eq_error {s : State} {c : FaultCause} :
    discardTop s = .error c ↔ stackCheck (spVal s) = .error c := by
  rw [← pop_eq_error]
  unfold discardTop
  cases pop s <;> simp

theorem peek_eq_ok {s : State} {v : Word} :
    peek s = .ok v ↔ ∃ k : Nat, spVal s = k ∧ k < 256 ∧ v = readSlot s k := memRead_eq_ok

theorem peek_eq_error {s : State} {c : FaultCause} : peek s = .error c ↔ stackCheck (spVal s) = .error c :=
  memRead_eq_error

theorem copyTop_eq_ok {rm : Reg} {s t : State} :
    copyTop rm s = .ok t ↔ ∃ k : Nat, spVal s = k ∧ k < 256 ∧ t = writeReg rm (readSlot s k) s := by
  unfold copyTop
  cases h : peek s with
  | error c =>
    have := peek_eq_error.1 h
    simp only [reduceCtorEq, false_iff, not_exists]
    rintro k ⟨hs, hk, -⟩
    rw [hs, stackCheck_natCast hk] at this
    cases this
  | ok v =>
    obtain ⟨k, hs, hk, rfl⟩ := peek_eq_ok.1 h
    simp only [Except.ok.injEq]
    constructor
    · rintro rfl; exact ⟨k, hs, hk, rfl⟩
    · rintro ⟨j, hj, -, rfl⟩
      obtain rfl : k = j := by omega
      rfl

theorem copyTop_eq_error {rm : Reg} {s : State} {c : FaultCause} :
    copyTop rm s = .error c ↔ stackCheck (spVal s) = .error c := by
  rw [← peek_eq_error]
  unfold copyTop
  cases peek s <;> simp

/-! ### The two stack operands (R100, R105) -/

/-- With two elements, the operands are the words of slots SP − 1 and SP. -/
theorem topTwo_eq_ok {s : State} {ops : StackOperands} :
    topTwo s = .ok ops ↔
      ∃ k : Nat, spVal s = (k : Int) + 1 ∧ k < 255 ∧ ops = ⟨k, readSlot s k, readSlot s (k + 1)⟩ := by
  unfold topTwo
  constructor
  · intro h
    split at h
    · cases h
    · cases h
    · next kl kr hl hr =>
      obtain ⟨h1, -⟩ := stackCheck_eq_ok.1 hl
      obtain ⟨h2, h3⟩ := stackCheck_eq_ok.1 hr
      obtain rfl : kr = kl + 1 := by omega
      cases h
      exact ⟨kl, by omega, by omega, rfl⟩
  · rintro ⟨k, hs, hk, rfl⟩
    have hl : stackCheck (spVal s - 1) = .ok k := stackCheck_eq_ok.2 ⟨by omega, by omega⟩
    have hr : stackCheck (spVal s) = .ok (k + 1) := stackCheck_eq_ok.2 ⟨by omega, by omega⟩
    rw [hl, hr]

/-- Fewer than two elements underflow; an SP above 255 overflows (R100). -/
theorem topTwo_eq_error {s : State} {c : FaultCause} :
    topTwo s = .error c ↔ (spVal s < 1 ∧ c = .stackUnderflow) ∨ (255 < spVal s ∧ c = .stackOverflow) := by
  unfold topTwo
  split
  · next d h =>
    simp only [Except.error.injEq]
    rcases stackCheck_eq_error.1 h with ⟨h1, rfl⟩ | ⟨h1, rfl⟩
    · constructor
      · rintro rfl; exact .inl ⟨by omega, rfl⟩
      · rintro (⟨-, rfl⟩ | ⟨h2, -⟩) <;> first | rfl | omega
    · constructor
      · rintro rfl; exact .inr ⟨by omega, rfl⟩
      · rintro (⟨h2, -⟩ | ⟨-, rfl⟩) <;> first | rfl | omega
  · next hl hr =>
    simp only [Except.error.injEq]
    obtain ⟨h1, h2⟩ := stackCheck_eq_ok.1 hl
    rcases stackCheck_eq_error.1 hr with ⟨h3, rfl⟩ | ⟨h3, rfl⟩
    · constructor
      · rintro rfl; exact .inl ⟨by omega, rfl⟩
      · rintro (⟨-, rfl⟩ | ⟨h4, -⟩) <;> first | rfl | omega
    · constructor
      · rintro rfl; exact .inr ⟨by omega, rfl⟩
      · rintro (⟨h4, -⟩ | ⟨-, rfl⟩) <;> first | rfl | omega
  · next hl hr =>
    obtain ⟨h1, h2⟩ := stackCheck_eq_ok.1 hl
    obtain ⟨h3, h4⟩ := stackCheck_eq_ok.1 hr
    simp only [reduceCtorEq, false_iff, not_or, not_and]
    omega

/-- The result operation of an arithmetic instruction whose divisor, if it divides, is not 0. -/
def resultOf (sym : ArithSym) (left right : Word) : Word :=
  match sym with
  | .plus => addWords left right
  | .times => mulWords left right
  | .minus => subWords left right
  | .divide => divWords left right

theorem arithResult_eq_ok {sym : ArithSym} {left right v : Word} :
    arithResult sym left right = .ok v ↔ (sym = .divide → right ≠ 0) ∧ v = resultOf sym left right := by
  cases sym with
  | divide =>
    by_cases h : right = 0
    · simp [arithResult, h]
    · simp only [arithResult, h, if_false, resultOf, Except.ok.injEq, ne_eq, not_false_eq_true, implies_true, true_and]
      exact eq_comm
  | plus | times | minus =>
    simp only [arithResult, resultOf, Except.ok.injEq, reduceCtorEq, false_implies, true_and]
    exact eq_comm

theorem arithResult_eq_error {sym : ArithSym} {left right : Word} {c : FaultCause} :
    arithResult sym left right = .error c ↔ sym = .divide ∧ right = 0 ∧ c = .divisionByZero := by
  cases sym with
  | divide =>
    by_cases h : right = 0
    · simp only [arithResult, h, if_true, Except.error.injEq, true_and]
      exact eq_comm
    · simp only [arithResult, h, if_false, reduceCtorEq, false_and, and_false]
  | plus | times | minus => simp [arithResult]

/-- A successful arithmetic execute stage (R100). -/
theorem arith_eq_ok {sym : ArithSym} {s t : State} :
    arith sym s = .ok t ↔
      ∃ k : Nat, spVal s = (k : Int) + 1 ∧ k < 255 ∧ (sym = .divide → readSlot s (k + 1) ≠ 0) ∧
        t = emit (.arith sym (readSlot s k) (readSlot s (k + 1)) (resultOf sym (readSlot s k) (readSlot s (k + 1))))
          (writeSlot k (resultOf sym (readSlot s k) (readSlot s (k + 1)))
            (writeReg .sp (wrap k)
              (writeReg .c (resultOf sym (readSlot s k) (readSlot s (k + 1)))
                (writeReg .b (readSlot s k) (writeReg .a (readSlot s (k + 1)) s))))) := by
  have hsp : ∀ (x y z : Word) (u : State), spVal (writeReg .c x (writeReg .b y (writeReg .a z u))) = spVal u :=
    fun _ _ _ _ => rfl
  unfold arith
  constructor
  · intro h
    split at h
    · cases h
    · next ops hops =>
      obtain ⟨k, hs, hk, rfl⟩ := topTwo_eq_ok.1 hops
      split at h
      · cases h
      · next v hv =>
        obtain ⟨hd, rfl⟩ := arithResult_eq_ok.1 hv
        cases h
        refine ⟨k, hs, hk, hd, ?_⟩
        simp only [replaceTopTwo, hsp, hs, add_sub_cancel_right]
  · rintro ⟨k, hs, hk, hd, rfl⟩
    rw [topTwo_eq_ok.2 ⟨k, hs, hk, rfl⟩]
    have hr := arithResult_eq_ok.2 ⟨hd, (rfl : resultOf sym (readSlot s k) (readSlot s (k + 1)) = _)⟩
    simp only [hr, replaceTopTwo, hsp, hs, add_sub_cancel_right]

theorem arith_eq_error {sym : ArithSym} {s : State} {c : FaultCause} :
    arith sym s = .error c ↔
      (spVal s < 1 ∧ c = .stackUnderflow) ∨ (255 < spVal s ∧ c = .stackOverflow) ∨
        (∃ k : Nat, spVal s = (k : Int) + 1 ∧ k < 255 ∧ readSlot s (k + 1) = 0 ∧ sym = .divide ∧
          c = .divisionByZero) := by
  unfold arith
  cases h : topTwo s with
  | error d =>
    simp only [Except.error.injEq]
    rcases topTwo_eq_error.1 h with ⟨h1, rfl⟩ | ⟨h1, rfl⟩
    · constructor
      · rintro rfl; exact .inl ⟨h1, rfl⟩
      · rintro (⟨-, rfl⟩ | ⟨h2, -⟩ | ⟨k, h2, -⟩) <;> first | rfl | omega
    · constructor
      · rintro rfl; exact .inr (.inl ⟨h1, rfl⟩)
      · rintro (⟨h2, -⟩ | ⟨-, rfl⟩ | ⟨k, h2, h3, -⟩) <;> first | rfl | omega
  | ok ops =>
    obtain ⟨k, hs, hk, rfl⟩ := topTwo_eq_ok.1 h
    cases hr : arithResult sym (readSlot s k) (readSlot s (k + 1)) with
    | error d =>
      obtain ⟨rfl, hz, rfl⟩ := arithResult_eq_error.1 hr
      simp only [hr, Except.error.injEq]
      constructor
      · rintro rfl; exact .inr (.inr ⟨k, hs, hk, hz, trivial, rfl⟩)
      · rintro (⟨h2, -⟩ | ⟨h2, -⟩ | ⟨-, -, -, -, -, rfl⟩) <;> first | rfl | omega
    | ok v =>
      obtain ⟨hd, -⟩ := arithResult_eq_ok.1 hr
      simp only [hr, reduceCtorEq, false_iff]
      rintro (⟨h2, -⟩ | ⟨h2, -⟩ | ⟨j, hj, -, hz, hdiv, -⟩)
      · omega
      · omega
      · obtain rfl : k = j := by omega
        exact hd hdiv hz

/-- A successful SLT execute stage (R105). -/
theorem compareTopTwo_eq_ok {s t : State} :
    compareTopTwo s = .ok t ↔
      ∃ k : Nat, spVal s = (k : Int) + 1 ∧ k < 255 ∧
        t = writeSlot k (sltWords (readSlot s k) (readSlot s (k + 1))) (writeReg .sp (wrap k) s) := by
  unfold compareTopTwo
  constructor
  · intro h
    split at h
    · cases h
    · next ops hops =>
      obtain ⟨k, hs, hk, rfl⟩ := topTwo_eq_ok.1 hops
      cases h
      exact ⟨k, hs, hk, by simp only [replaceTopTwo, hs, add_sub_cancel_right]⟩
  · rintro ⟨k, hs, hk, rfl⟩
    rw [topTwo_eq_ok.2 ⟨k, hs, hk, rfl⟩]
    simp only [replaceTopTwo, hs, add_sub_cancel_right]

theorem compareTopTwo_eq_error {s : State} {c : FaultCause} :
    compareTopTwo s = .error c ↔ (spVal s < 1 ∧ c = .stackUnderflow) ∨ (255 < spVal s ∧ c = .stackOverflow) := by
  rw [← topTwo_eq_error]
  unfold compareTopTwo
  cases topTwo s <;> simp

/-! ### Branches (R140 to R142) -/

theorem targetInProgram_iff {target : Word} {s : State} :
    targetInProgram target s = true ↔ 0 ≤ target.toInt ∧ target.toInt < progLen s := by
  simp [targetInProgram]

theorem takeBranch_eq_ok {target : Word} {s t : State} :
    takeBranch target s = .ok t ↔
      (0 ≤ target.toInt ∧ target.toInt < progLen s) ∧ t = setJumped (writeReg .ip target s) := by
  unfold takeBranch
  rw [← targetInProgram_iff]
  split_ifs with h <;> simp [h, eq_comm]

theorem takeBranch_eq_error {target : Word} {s : State} {c : FaultCause} :
    takeBranch target s = .error c ↔
      ¬ (0 ≤ target.toInt ∧ target.toInt < progLen s) ∧ c = .outOfRangeJump := by
  unfold takeBranch
  rw [← targetInProgram_iff]
  split_ifs with h <;> simp [h, eq_comm]

end Sys2Proof.Machine
end

