-- ==== Sys2Proof/Laws/Step.lean ====
section
/-! SUPPORT. What the stages of an instruction, the fetch and the step can do, said once. -/

namespace Sys2Proof.Machine

/-! ### The advance and status stages (R74, R75) -/

@[simp] theorem advance_stack (o : Opcode) (s : State) : (advance o s).stack = s.stack := by
  unfold advance; split_ifs <;> rfl
@[simp] theorem advance_status (o : Opcode) (s : State) : (advance o s).status = s.status := by
  unfold advance; split_ifs <;> rfl
@[simp] theorem advance_jumped (o : Opcode) (s : State) : (advance o s).jumped = s.jumped := by
  unfold advance; split_ifs <;> rfl
@[simp] theorem advance_fcause (o : Opcode) (s : State) : (advance o s).fcause = s.fcause := by
  unfold advance; split_ifs <;> rfl
@[simp] theorem advance_fop (o : Opcode) (s : State) : (advance o s).fop = s.fop := by
  unfold advance; split_ifs <;> rfl
@[simp] theorem advance_fip (o : Opcode) (s : State) : (advance o s).fip = s.fip := by
  unfold advance; split_ifs <;> rfl
@[simp] theorem advance_out (o : Opcode) (s : State) : (advance o s).out = s.out := by
  unfold advance; split_ifs <;> rfl
@[simp] theorem advance_prog (o : Opcode) (s : State) : (advance o s).prog = s.prog := by
  unfold advance; split_ifs <;> rfl
@[simp] theorem advance_draw (o : Opcode) (s : State) : (advance o s).draw = s.draw := by
  unfold advance; split_ifs <;> rfl
@[simp] theorem readSlot_advance (o : Opcode) (s : State) (k : Nat) : readSlot (advance o s) k = readSlot s k := by
  unfold advance; split_ifs <;> rfl

/-- The IP policy as a read (R74): IP is advanced unless `J` is set, and no other register changes. -/
@[simp] theorem readReg_advance (o : Opcode) (s : State) (r : Reg) :
    readReg (advance o s) r =
      if s.jumped = false ∧ r = .ip then wrap (ipVal s + 1 + width o) else readReg s r := by
  unfold advance
  cases s.jumped <;> simp

@[simp] theorem statusStage_regs (o : Opcode) (s : State) : (statusStage o s).regs = s.regs := by cases o <;> rfl
@[simp] theorem statusStage_stack (o : Opcode) (s : State) : (statusStage o s).stack = s.stack := by cases o <;> rfl
@[simp] theorem statusStage_jumped (o : Opcode) (s : State) : (statusStage o s).jumped = s.jumped := by
  cases o <;> rfl
@[simp] theorem statusStage_fcause (o : Opcode) (s : State) : (statusStage o s).fcause = s.fcause := by
  cases o <;> rfl
@[simp] theorem statusStage_fop (o : Opcode) (s : State) : (statusStage o s).fop = s.fop := by cases o <;> rfl
@[simp] theorem statusStage_fip (o : Opcode) (s : State) : (statusStage o s).fip = s.fip := by cases o <;> rfl
@[simp] theorem statusStage_out (o : Opcode) (s : State) : (statusStage o s).out = s.out := by cases o <;> rfl
@[simp] theorem statusStage_prog (o : Opcode) (s : State) : (statusStage o s).prog = s.prog := by cases o <;> rfl
@[simp] theorem statusStage_draw (o : Opcode) (s : State) : (statusStage o s).draw = s.draw := by cases o <;> rfl
@[simp] theorem readReg_statusStage (o : Opcode) (s : State) (r : Reg) :
    readReg (statusStage o s) r = readReg s r := by cases o <;> rfl
@[simp] theorem readSlot_statusStage (o : Opcode) (s : State) (k : Nat) :
    readSlot (statusStage o s) k = readSlot s k := by cases o <;> rfl

/-- Only HLT changes the status (R75). -/
@[simp] theorem statusStage_status (o : Opcode) (s : State) :
    (statusStage o s).status = if o = .hlt then .halted else s.status := by cases o <;> rfl

/-! ### One instruction (R73 to R77) -/

/-- The execute stage of each instruction (R73). -/
def body : Instr → State → Except FaultCause State
  | .hlt, t => .ok (emit .haltNotice t)
  | .psh val, t => push val t
  | .pop, t => discardTop t
  | .add, t => arith .plus t
  | .mul, t => arith .times t
  | .div, t => arith .divide t
  | .sub, t => arith .minus t
  | .slt, t => compareTopTwo t
  | .mov rsrc rdst, t => .ok (writeReg rdst (readReg t rsrc) t)
  | .set rdst val, t => .ok (writeReg rdst val t)
  | .log rm, t => .ok (emit (.log (readReg t rm)) t)
  | .ifEq rm val target, t => if readReg t rm = val then takeBranch target t else .ok t
  | .ifNe rm val target, t => if readReg t rm ≠ val then takeBranch target t else .ok t
  | .gld rm, t => push (readReg t rm) t
  | .gpt rm, t => copyTop rm t
  | .nop, t => .ok (emit .nopNotice t)

/-- Every instruction is its execute stage run between the common stages. -/
theorem exec_eq_runStages (i : Instr) (s : State) : exec i s = runStages i.opcode (body i) s := by
  cases i <;> rfl

theorem runStages_of_ok {o : Opcode} {b : State → Except FaultCause State} {s t : State}
    (h : b (clearJumped s) = .ok t) : runStages o b s = .next (statusStage o (advance o t)) := by
  simp [runStages, h]

theorem runStages_of_error {o : Opcode} {b : State → Except FaultCause State} {s : State} {c : FaultCause}
    (h : b (clearJumped s) = .error c) : runStages o b s = .next (raise c (opcodeWord o) s) := by
  simp [runStages, h]

/-- What an instruction can do: take the fault its execute stage found, or complete. -/
theorem exec_cases {i : Instr} {s t : State} (h : exec i s = .next t) :
    (∃ c, body i (clearJumped s) = .error c ∧ t = raise c (opcodeWord i.opcode) s) ∨
    (∃ u, body i (clearJumped s) = .ok u ∧ t = statusStage i.opcode (advance i.opcode u)) := by
  rw [exec_eq_runStages] at h
  cases hb : body i (clearJumped s) with
  | error c =>
    rw [runStages_of_error hb] at h
    cases h
    exact .inl ⟨c, rfl, rfl⟩
  | ok u =>
    rw [runStages_of_ok hb] at h
    cases h
    exact .inr ⟨u, rfl, rfl⟩

/-! ### Fetch (R71, R72) -/

theorem progRead_eq_none {s : State} {i : Int} : progRead s i = none ↔ i < 0 ∨ (progLen s : Int) ≤ i := by
  unfold progRead progLen
  split_ifs with h
  · simp [h]
  · rw [List.getElem?_eq_none_iff]
    omega

theorem progRead_eq_some {s : State} {i : Int} {w : Word} :
    progRead s i = some w ↔ 0 ≤ i ∧ s.prog[i.toNat]? = some w := by
  unfold progRead
  split_ifs with h
  · exact ⟨fun h' => by (cases h'), fun h' => by omega⟩
  · have : 0 ≤ i := by omega
    simp [this]

/-- What the fetch and decode stages can find. -/
theorem fetch_cases (s : State) :
    (ipVal s < 0 ∧ fetch s = .fault .outOfRangeJump noOpcode) ∨
    ((progLen s : Int) ≤ ipVal s ∧ fetch s = .exhausted) ∨
    (∃ op, progRead s (ipVal s) = some op ∧ 0 ≤ ipVal s ∧ ipVal s < progLen s ∧
      ((∃ e, decode op (s.prog.drop ((ipVal s).toNat + 1)) = .error e ∧ fetch s = .fault (decodeCause e) op) ∨
       (∃ i, decode op (s.prog.drop ((ipVal s).toNat + 1)) = .ok i ∧ fetch s = .instr i))) := by
  unfold fetch
  by_cases hneg : ipVal s < 0
  · exact .inl ⟨hneg, by simp [hneg]⟩
  · cases hp : progRead s (ipVal s) with
    | none =>
      rcases progRead_eq_none.1 hp with h | h
      · exact absurd h hneg
      · exact .inr (.inl ⟨h, by simp [hneg]⟩)
    | some op =>
      have hlt : ipVal s < progLen s := by
        by_contra hge
        rw [progRead_eq_none.2 (.inr (by omega))] at hp
        cases hp
      refine .inr (.inr ⟨op, rfl, by omega, hlt, ?_⟩)
      cases hd : decode op (s.prog.drop ((ipVal s).toNat + 1)) with
      | error e => exact .inl ⟨e, rfl, by simp [hneg, hd]⟩
      | ok i => exact .inr ⟨i, rfl, by simp [hneg, hd]⟩

/-- A fetched instruction lies whole inside the program: its words fit between IP and `PROG_LEN` (R72). -/
theorem fetch_instr_fits {s : State} {i : Instr} (h : fetch s = .instr i) :
    0 ≤ ipVal s ∧ ipVal s + width i.opcode < progLen s := by
  rcases fetch_cases s with ⟨-, h'⟩ | ⟨-, h'⟩ | ⟨op, -, h0, h1, ⟨e, -, h'⟩ | ⟨j, hd, h'⟩⟩
  · rw [h'] at h; cases h
  · rw [h'] at h; cases h
  · rw [h'] at h; cases h
  · rw [h'] at h
    cases h
    refine ⟨h0, ?_⟩
    have hl : (s.prog.drop ((ipVal s).toNat + 1)).length = progLen s - ((ipVal s).toNat + 1) := List.length_drop
    rcases decode_cases op (s.prog.drop ((ipVal s).toNat + 1)) with ⟨-, h2⟩ | ⟨_, -, -, h2⟩ | ⟨o, -, hw, h2⟩
    · rw [h2] at hd; cases hd
    · rw [h2] at hd; cases hd
    · rw [h2] at hd
      rw [opcode_of_decodeOperands hd]
      omega

/-! ### The step (R80) -/

/-- What a step can do. -/
theorem step_cases {s t : State} (h : step s = .next t) :
    (s.status ≠ .running ∧ t = s) ∨
    (s.status = .running ∧
      ((∃ c op, fetch s = .fault c op ∧ t = raise c op s) ∨
       (fetch s = .exhausted ∧ t = exhaust s) ∨
       (∃ i, fetch s = .instr i ∧ exec i s = .next t))) := by
  unfold step at h
  split at h
  · next hs =>
    refine .inr ⟨hs, ?_⟩
    unfold runningStep at h
    split at h
    · next c op hf => cases h; exact .inl ⟨c, op, hf, rfl⟩
    · next hf => cases h; exact .inr (.inl ⟨hf, rfl⟩)
    · next i hf => exact .inr (.inr ⟨i, hf, h⟩)
  all_goals
    next hs =>
      cases h
      exact .inl ⟨by simp [hs], rfl⟩

end Sys2Proof.Machine
end

