-- ==== Sys2Proof/Laws/Instr.lean ====
section
/-! SUPPORT. What the execute stage of an instruction can change, over all instructions at once, and the induction along
a run. -/

namespace Sys2Proof.Machine

/-- What a successful execute stage leaves as it was, and how far what it changes can reach. -/
structure BodyFrame (i : Instr) (s u : State) : Prop where
  status : u.status = s.status
  fcause : u.fcause = s.fcause
  fop : u.fop = s.fop
  fip : u.fip = s.fip
  prog : u.prog = s.prog
  draw : u.draw = s.draw
  /-- At most one event is emitted (R22). -/
  out : ∃ es, u.out = s.out ++ es ∧ es.length ≤ 1
  /-- At most one slot is written, next to SP (R18, R36). -/
  stack : u.stack = s.stack ∨
    ∃ (k : Nat) (v : Word), ((k : Int) = spVal s + 1 ∨ (k : Int) = spVal s - 1) ∧ k < 256 ∧
      u.stack = Memory.write s.stack k v
  /-- A register that is not the destination, not SP or IP, and not a temporary of the instruction is kept (R12). -/
  regs : ∀ r, destination i ≠ some r → r ≠ .sp → r ≠ .ip →
    (r = .a ∨ r = .b ∨ r = .c → i ≠ .add ∧ i ≠ .mul ∧ i ≠ .div ∧ i ≠ .sub) → readReg u r = readReg s r
  /-- IP is written only as a destination or by a taken branch (R15). -/
  ip : destination i ≠ some .ip → u.jumped = false → readReg u .ip = readReg s .ip

/-- An execute stage that only writes one register, the destination. -/
theorem bodyFrame_writeReg {i : Instr} {s : State} {r : Reg} {v : Word} (hd : destination i = some r) :
    BodyFrame i s (writeReg r v s) where
  status := rfl
  fcause := rfl
  fop := rfl
  fip := rfl
  prog := rfl
  draw := rfl
  out := ⟨[], by simp, by simp⟩
  stack := .inl rfl
  regs q hq _ _ _ := by
    have : q ≠ r := fun h => hq (h ▸ hd)
    simp [this]
  ip hq _ := by
    have : Reg.ip ≠ r := fun h => hq (h ▸ hd)
    simp [this]

/-- An execute stage that changes nothing. -/
theorem bodyFrame_refl (i : Instr) (s : State) : BodyFrame i s s :=
  ⟨rfl, rfl, rfl, rfl, rfl, rfl, ⟨[], by simp, by simp⟩, .inl rfl, fun _ _ _ _ _ => rfl, fun _ _ => rfl⟩

/-- An execute stage that only emits an event. -/
theorem bodyFrame_emit (i : Instr) (e : Event) (s : State) : BodyFrame i s (emit e s) :=
  ⟨rfl, rfl, rfl, rfl, rfl, rfl, ⟨[e], rfl, by simp⟩, .inl rfl, fun _ _ _ _ _ => rfl, fun _ _ => rfl⟩

theorem bodyFrame_push {i : Instr} {s u : State} {v : Word} (h : push v s = .ok u) : BodyFrame i s u := by
  obtain ⟨k, hk, hl, rfl⟩ := push_eq_ok.1 h
  exact ⟨rfl, rfl, rfl, rfl, rfl, rfl, ⟨[], by simp, by simp⟩, .inr ⟨k, v, .inl hk.symm, hl, rfl⟩,
    fun r _ h1 _ _ => by simp [h1], fun _ _ => by simp⟩

theorem bodyFrame_arith {i : Instr} {sym : ArithSym} {s u : State} (h : arith sym s = .ok u)
    (hi : i = .add ∨ i = .mul ∨ i = .div ∨ i = .sub) : BodyFrame i s u := by
  obtain ⟨k, hk, hl, -, rfl⟩ := arith_eq_ok.1 h
  refine ⟨rfl, rfl, rfl, rfl, rfl, rfl, ⟨[_], rfl, by simp⟩, .inr ⟨k, _, .inr (by omega), by omega, rfl⟩,
    fun r _ h1 h2 h3 => ?_, fun _ _ => by simp⟩
  have hr : r ≠ .a ∧ r ≠ .b ∧ r ≠ .c := by
    refine ⟨?_, ?_, ?_⟩ <;> rintro rfl <;> rcases hi with rfl | rfl | rfl | rfl <;> simp at h3
  simp [h1, hr]

theorem bodyFrame_takeBranch {i : Instr} {target : Word} {s u : State} (h : takeBranch target s = .ok u) :
    BodyFrame i s u := by
  obtain ⟨-, rfl⟩ := takeBranch_eq_ok.1 h
  exact ⟨rfl, rfl, rfl, rfl, rfl, rfl, ⟨[], by simp, by simp⟩, .inl rfl, fun r _ _ h2 _ => by simp [h2],
    fun _ hj => by simp at hj⟩

/-- The frame of every instruction's execute stage. -/
theorem body_frame {i : Instr} {s u : State} (h : body i s = .ok u) : BodyFrame i s u := by
  cases i
  case psh => exact bodyFrame_push h
  case gld => exact bodyFrame_push h
  case add => exact bodyFrame_arith (sym := .plus) h (by simp)
  case mul => exact bodyFrame_arith (sym := .times) h (by simp)
  case div => exact bodyFrame_arith (sym := .divide) h (by simp)
  case sub => exact bodyFrame_arith (sym := .minus) h (by simp)
  case pop =>
    obtain ⟨k, -, -, rfl⟩ := discardTop_eq_ok.1 h
    exact ⟨rfl, rfl, rfl, rfl, rfl, rfl, ⟨[], by simp, by simp⟩, .inl rfl, fun r _ h1 _ _ => by simp [h1],
      fun _ _ => by simp⟩
  case slt =>
    obtain ⟨k, hk, hl, rfl⟩ := compareTopTwo_eq_ok.1 h
    exact ⟨rfl, rfl, rfl, rfl, rfl, rfl, ⟨[], by simp, by simp⟩, .inr ⟨k, _, .inr (by omega), by omega, rfl⟩,
      fun r _ h1 _ _ => by simp [h1], fun _ _ => by simp⟩
  case gpt =>
    obtain ⟨k, -, -, rfl⟩ := copyTop_eq_ok.1 h
    exact bodyFrame_writeReg rfl
  case mov => cases h; exact bodyFrame_writeReg rfl
  case set => cases h; exact bodyFrame_writeReg rfl
  case ifEq =>
    simp only [body] at h
    split_ifs at h
    · exact bodyFrame_takeBranch h
    · cases h; exact bodyFrame_refl _ _
  case ifNe =>
    simp only [body] at h
    split_ifs at h
    · exact bodyFrame_takeBranch h
    · cases h; exact bodyFrame_refl _ _
  case hlt => cases h; exact bodyFrame_emit _ _ _
  case log => cases h; exact bodyFrame_emit _ _ _
  case nop => cases h; exact bodyFrame_emit _ _ _

theorem exec_of_body_ok {i : Instr} {s u : State} (h : body i (clearJumped s) = .ok u) :
    exec i s = .next (statusStage i.opcode (advance i.opcode u)) := by
  rw [exec_eq_runStages]; exact runStages_of_ok h

theorem exec_of_body_error {i : Instr} {s : State} {c : FaultCause} (h : body i (clearJumped s) = .error c) :
    exec i s = .next (raise c (opcodeWord i.opcode) s) := by
  rw [exec_eq_runStages]; exact runStages_of_error h

/-- `raise` does what R171 and R172 say of it. -/
theorem raise_taken (c : FaultCause) (op : Word) (s : State) : FaultTaken c op s (raise c op s) :=
  ⟨rfl, rfl, rfl, rfl, rfl, fun _ _ => rfl, fun _ => rfl, rfl, rfl⟩

/-- The induction along a run: what holds at its start and is kept by every step holds at its end. -/
theorem Steps.induction {P : State → Prop} (hstep : ∀ s t, P s → step s = .next t → P t)
    {k : Nat} {s t : State} (h : Steps k s t) (h0 : P s) : P t := by
  induction h with
  | zero => exact h0
  | more _ hn ih => exact hstep _ _ (ih h0) hn

end Sys2Proof.Machine
end

