-- ==== Sys2Proof/Laws/PerInstr.lean ====
section
/-! SUPPORT. The statements made for each instruction by itself. -/

namespace Sys2Proof.Laws.EncodingShape

/-- An instruction's words are its opcode word, which selects the instruction's opcode, and as many operand words as
the opcode's width (R50, R53). -/
def Statement (i : Instr) : Prop :=
  (encode i).head? = some (opcodeWord i.opcode) ∧ opcodeOf (opcodeWord i.opcode) = some i.opcode ∧
    (encode i).length = 1 + width i.opcode

/-- The shape follows from the count of operand words, whatever the instruction. -/
theorem of_operand_count {i : Instr} (h : i.operandWords.length = width i.opcode) : Statement i :=
  ⟨rfl, opcodeOf_opcodeWord _, by rw [encode, List.length_cons, h, Nat.add_comm]⟩

theorem hlt : Statement .hlt := of_operand_count rfl
theorem psh (val : Word) : Statement (.psh val) := of_operand_count rfl
theorem pop : Statement .pop := of_operand_count rfl
theorem add : Statement .add := of_operand_count rfl
theorem mul : Statement .mul := of_operand_count rfl
theorem div : Statement .div := of_operand_count rfl
theorem sub : Statement .sub := of_operand_count rfl
theorem slt : Statement .slt := of_operand_count rfl
theorem mov (rsrc rdst : Reg) : Statement (.mov rsrc rdst) := of_operand_count rfl
theorem set (rdst : Reg) (val : Word) : Statement (.set rdst val) := of_operand_count rfl
theorem log (rm : Reg) : Statement (.log rm) := of_operand_count rfl
theorem ifEq (rm : Reg) (val target : Word) : Statement (.ifEq rm val target) := of_operand_count rfl
theorem ifNe (rm : Reg) (val target : Word) : Statement (.ifNe rm val target) := of_operand_count rfl
theorem gld (rm : Reg) : Statement (.gld rm) := of_operand_count rfl
theorem gpt (rm : Reg) : Statement (.gpt rm) := of_operand_count rfl
theorem nop : Statement .nop := of_operand_count rfl

end Sys2Proof.Laws.EncodingShape
end

