-- ==== Sys2Proof/Tests/Slice0.lean ====
section
/-! SUPPORT. Tests. Expected results are the spec's: its examples E<n> and vectors V<n> (spec/95_test_vectors.md) and
its encoding tables (spec/30_encoding.md), named at each test. The `witness_` theorems show, for each statement with
hypotheses, a concrete state and operands that meet them. -/

namespace Sys2Proof.Tests

open Sys2Proof Sys2Proof.Machine

/-- A running state with program `prog`, the given IP and SP, and the listed stack words; other registers 0. -/
def stateAt (prog : List Word) (ip sp : Word) (cells : Memory) : State :=
  { State.resetWith prog 0 with regs := { RegFile.reset with ip := ip, sp := sp }, stack := cells }

/-- The state after one step (there is always one). -/
def after (s : State) : State :=
  match step s with
  | .next t => t
  | .fault _ => s
  | .refused _ => s

/-- The state after executing one instruction. -/
def afterExec (i : Instr) (s : State) : State :=
  match exec i s with
  | .next t => t
  | .fault _ => s
  | .refused _ => s

/-! ### Well-formedness: what each check refuses (R4, R56, R58) -/

theorem test_target_at_length_refused : targetLegal 4 4 = false := by decide
theorem test_target_negative_refused : targetLegal 4 (-1) = false := by decide
theorem test_target_last_accepted : targetLegal 4 3 = true := by decide
theorem test_length_refused : progLenLegal 2147483648 = false := by decide
theorem test_operands_refused : operandsFit 2 0 2 = false := by decide
theorem test_branch_refused : (Instr.ifNe .d 0 4).wellFormed 4 = false := by decide

/-! ### Decoding: each constructor from words written out from rules R51, R52 and R11 -/

theorem test_decode_hlt : decode 0 [] = .ok .hlt := by decide
theorem test_decode_psh : decode 1 [0x80000000] = .ok (.psh (wrap (-2147483648))) := by decide
theorem test_decode_pop : decode 2 [9, 9] = .ok .pop := by decide
theorem test_decode_add : decode 3 [] = .ok .add := by decide
theorem test_decode_mul : decode 4 [] = .ok .mul := by decide
theorem test_decode_div : decode 5 [] = .ok .div := by decide
theorem test_decode_sub : decode 6 [] = .ok .sub := by decide
theorem test_decode_slt : decode 7 [] = .ok .slt := by decide
theorem test_decode_mov : decode 8 [9, 10, 0] = .ok (.mov .exa .ip) := by decide
theorem test_decode_set : decode 9 [7, 0xFFFFFFFF] = .ok (.set .h (wrap (-1))) := by decide
theorem test_decode_log : decode 10 [8] = .ok (.log .ex) := by decide
theorem test_decode_if : decode 11 [6, 1, 22] = .ok (.ifEq .g 1 22) := by decide
theorem test_decode_ifn : decode 12 [3, 0, 3] = .ok (.ifNe .d 0 3) := by decide
theorem test_decode_gld : decode 13 [11] = .ok (.gld .sp) := by decide
theorem test_decode_gpt : decode 14 [4] = .ok (.gpt .e) := by decide
theorem test_decode_nop : decode 15 [] = .ok .nop := by decide
/-- R60: the operands' presence is checked before the register operands. -/
theorem test_decode_truncated_first : decode 8 [12] = .error .truncatedOperand := by decide
/-- R51: word 1 is the first operand word, so SET B,5 has 1 in bits 63..32 and 5 in bits 95..64. -/
theorem test_table_word_set : decodeTableWord 96 0x000000050000000100000009 = some (.set .b 5) := by decide
theorem test_table_word_short : decodeTableWord 32 0x0000000B = some (.ifEq .a 0 0) := by decide
theorem test_table_word_unknown : decodeTableWord 32 0x00000010 = none := by decide

/-! ### Instructions -/

/-- V79. -/
theorem test_hlt : (after (stateAt [0] 0 (-1) [])).status = .halted ∧ (after (stateAt [0] 0 (-1) [])).out = [.haltNotice] ∧
    ipVal (after (stateAt [0] 0 (-1) [])) = 1 := by decide
/-- V3: the 256th push. -/
theorem test_psh_last_slot : spVal (after (stateAt [1, 9] 0 254 [])) = 255 ∧
    readSlot (after (stateAt [1, 9] 0 254 [])) 255 = 9 := by decide
/-- V4. -/
theorem test_psh_full : faultRecordOutput (after (stateAt [1, 9] 0 255 [])) = ⟨2, 0, 1⟩ := by decide
/-- V7. -/
theorem test_pop : spVal (after (stateAt [2] 0 0 [(0, 42)])) = -1 ∧ readSlot (after (stateAt [2] 0 0 [(0, 42)])) 0 = 42 := by
  decide
/-- V9. -/
theorem test_pop_beyond : faultRecordOutput (after (stateAt [9, 11, 300, 2] 3 300 [])) = ⟨2, 3, 2⟩ := by decide
/-- V12. -/
theorem test_add_wraps : (after (stateAt [3] 0 1 [(0, 2147483647), (1, 1)])).out =
    [.arith .plus 2147483647 1 (wrap (-2147483648))] := by decide
/-- V16. -/
theorem test_add_temporaries : (after (stateAt [3] 0 2 [(0, 8), (1, 3), (2, 4)])).stack = [(0, 8), (1, 7), (2, 4)] ∧
    (after (stateAt [3] 0 2 [(0, 8), (1, 3), (2, 4)])).regs =
      { RegFile.reset with a := 4, b := 3, c := 7, ip := 1, sp := 1 } := by decide
/-- V19. -/
theorem test_mul_wraps : readReg (after (stateAt [4] 0 1 [(0, 46341), (1, 46341)])) .c = wrap (-2147479015) := by decide
/-- V17. -/
theorem test_mul_signs : readReg (after (stateAt [4] 0 1 [(0, 6), (1, -7)])) .c = wrap (-42) := by decide
/-- V23. -/
theorem test_div_toward_zero : readReg (after (stateAt [5] 0 1 [(0, -7), (1, 2)])) .c = wrap (-3) := by decide
/-- V29: −2147483648 / −1 wraps. -/
theorem test_div_min_by_minus_one :
    readSlot (after (stateAt [5] 0 1 [(0, 0x80000000), (1, -1)])) 0 = wrap (-2147483648) := by decide
/-- V32: left operand first. -/
theorem test_sub_order : readReg (after (stateAt [6] 0 1 [(0, 3), (1, 4)])) .c = wrap (-1) := by decide
/-- V33. -/
theorem test_sub_wraps : readSlot (after (stateAt [6] 0 1 [(0, 0x80000000), (1, 1)])) 0 = 2147483647 := by decide
/-- V37, E4: second-from-top < top. -/
theorem test_slt_direction : (after (stateAt [7] 0 1 [(0, 5), (1, 3)])).stack = [(0, 0), (1, 3)] := by decide
/-- V39: signed; A, B, C are not touched. -/
theorem test_slt_signed : (after (stateAt [7] 0 1 [(0, -1), (1, 0)])).stack = [(0, 1), (1, 0)] ∧
    (after (stateAt [7] 0 1 [(0, -1), (1, 0)])).regs = { RegFile.reset with ip := 1, sp := 0 } := by decide
/-- V53: MOV IP,D copies the index of the MOV. -/
theorem test_mov_from_ip : readReg (after (stateAt [15, 15, 15, 8, 10, 3] 3 (-1) [])) .d = 3 ∧
    ipVal (after (stateAt [15, 15, 15, 8, 10, 3] 3 (-1) [])) = 6 := by decide
/-- R124: MOV r,IP jumps to x[r] + 3; here r is SP, which holds 7. -/
theorem test_mov_to_ip : ipVal (after (stateAt [8, 11, 10] 0 7 [])) = 10 := by decide
/-- V46. -/
theorem test_set : readReg (after (stateAt [9, 7, -1] 0 (-1) [])) .h = wrap (-1) ∧
    ipVal (after (stateAt [9, 7, -1] 0 (-1) [])) = 3 := by decide
/-- V56: the advance wraps. -/
theorem test_set_ip_wraps : ipVal (after (stateAt [9, 10, 2147483647] 0 (-1) [])) = -2147483646 := by decide
/-- V81. -/
theorem test_log_sp : (after (stateAt [10, 11] 0 (-1) [])).out = [.log (wrap (-1))] := by decide
/-- V77: a taken branch to the last index. -/
theorem test_if_taken : ipVal (after (stateAt [11, 0, 0, 4, 0] 0 (-1) [])) = 4 ∧
    (after (stateAt [11, 0, 0, 4, 0] 0 (-1) [])).jumped = true := by decide
/-- E9: a taken branch to `PROG_LEN`. -/
theorem test_if_to_length : faultRecordOutput (after (stateAt [11, 0, 0, 4] 0 (-1) [])) = ⟨5, 0, 11⟩ := by decide
/-- V78: a target out of range is not looked at when the branch is not taken. -/
theorem test_ifn_not_taken : ipVal (after (stateAt [12, 0, 0, 999] 0 (-1) [])) = 4 ∧
    (after (stateAt [12, 0, 0, 999] 0 (-1) [])).jumped = false := by decide
/-- R141: IFN SP,-2,0 with SP = −1 is taken. -/
theorem test_ifn_taken : ipVal (after (stateAt [15, 12, 11, -2, 0] 1 (-1) [])) = 0 ∧
    (after (stateAt [15, 12, 11, -2, 0] 1 (-1) [])).jumped = true := by decide
/-- V59: GLD SP pushes the old SP. -/
theorem test_gld_sp : (after (stateAt [13, 11] 0 (-1) [])).stack = [(0, wrap (-1))] ∧
    spVal (after (stateAt [13, 11] 0 (-1) [])) = 0 := by decide
/-- V60a: GLD IP pushes the index of the GLD. -/
theorem test_gld_ip : (after (stateAt [15, 15, 13, 10] 2 (-1) [])).stack = [(0, 2)] := by decide
/-- V65: GPT SP. -/
theorem test_gpt_sp : spVal (after (stateAt [14, 11] 0 0 [(0, -1)])) = -1 ∧
    ipVal (after (stateAt [14, 11] 0 0 [(0, -1)])) = 2 := by decide
/-- V66: GPT IP jumps to the top word + 2, which stays on the stack. -/
theorem test_gpt_ip : ipVal (after (stateAt [1, 5, 14, 10] 2 0 [(0, 5)])) = 7 ∧
    spVal (after (stateAt [1, 5, 14, 10] 2 0 [(0, 5)])) = 0 := by decide
/-- V80. -/
theorem test_nop : (after (stateAt [15] 0 (-1) [])).out = [.nopNotice] ∧ ipVal (after (stateAt [15] 0 (-1) [])) = 1 := by
  decide

/-! ### The loop and its faults -/

/-- V83: the empty program. -/
theorem test_exhausted : (after State.reset).status = .exhausted ∧ causeCode (after State.reset).fcause = 0 := by decide
/-- V55: a negative IP at fetch. -/
theorem test_negative_ip : faultRecordOutput (after (stateAt [9, 10, -10] (-7) (-1) [])) = ⟨5, -7, -1⟩ := by decide
/-- V85. -/
theorem test_unknown_opcode : faultRecordOutput (after (stateAt [-1] 0 (-1) [])) = ⟨1, 0, -1⟩ := by decide
/-- V10: truncation comes before the full stack. -/
theorem test_truncated_first : faultRecordOutput (after (stateAt [1] 0 255 [])) = ⟨6, 0, 1⟩ := by decide
/-- V62: the register check comes before the full stack. -/
theorem test_register_before_stack : faultRecordOutput (after (stateAt [13, 12] 0 255 [])) = ⟨7, 0, 13⟩ := by decide
/-- V30: underflow comes before the divisor. -/
theorem test_underflow_before_divisor : faultRecordOutput (after (stateAt [5] 0 0 [(0, 0)])) = ⟨3, 0, 5⟩ := by decide
/-- E6: a faulting DIV leaves registers, stack and output. -/
theorem test_div_by_zero_precise : after (stateAt [5] 0 1 [(0, 1), (1, 0)]) =
    raise .divisionByZero 5 (stateAt [5] 0 1 [(0, 1), (1, 0)]) := by decide
/-- V68: a slot never written since reset reads as `STACK_INIT`. -/
theorem test_unwritten_slot : readReg (after (stateAt [9, 11, 0, 14, 3] 3 0 [])) .d = Config.stackInit 0 0 := by rfl
/-- An instruction placed by `withFetchWord` is the first that runs after reset. -/
theorem test_placed_instruction : step (State.reset.withFetchWord 64 0x0000000500000001) =
    exec (.psh 5) (State.reset.withFetchWord 64 0x0000000500000001) := by rfl

/-! ### Witnesses: hypotheses of the statements about words and decoding -/

theorem witness_div_quotient : (wrap (-1)) ≠ 0 ∧ (0 : Word) = 0 := by decide
theorem witness_encode_of_decode : decode 8 [0, 11, 5] = .ok (.mov .a .sp) := by decide
theorem witness_rejects_unknown : decode 16 [] = .error .unknownOpcode ∧ decode (-1) [] = .error .unknownOpcode := by decide
theorem witness_rejects_truncated : decode 11 [0, 0] = .error .truncatedOperand := by decide
theorem witness_rejects_register : NotRegister 12 ∧ NotRegister (-1) ∧ decode 11 [12, 0, 0] = .error .invalidRegister ∧
    decode 8 [0, -1] = .error .invalidRegister := by decide

/-! ### Witnesses: stack and register instructions -/

theorem witness_push_lowest : spVal (stateAt [] 0 (-1) []) + 1 = (0 : Nat) ∧ 0 ≤ 255 := by decide
theorem witness_push_highest : spVal (stateAt [] 0 254 []) + 1 = (255 : Nat) ∧ 255 ≤ 255 := by decide
theorem witness_push_overflow : 255 ≤ spVal (stateAt [] 0 255 []) := by decide
theorem witness_push_underflow : spVal (stateAt [] 0 (-2) []) < -1 := by decide
theorem witness_pop_lowest : 0 ≤ spVal (stateAt [] 0 0 []) ∧ spVal (stateAt [] 0 0 []) ≤ 255 := by decide
theorem witness_pop_highest : 0 ≤ spVal (stateAt [] 0 255 []) ∧ spVal (stateAt [] 0 255 []) ≤ 255 := by decide
theorem witness_pop_underflow : spVal (stateAt [] 0 (-1) []) < 0 := by decide
theorem witness_pop_overflow : 255 < spVal (stateAt [] 0 256 []) := by decide
theorem witness_peek_highest : spVal (stateAt [] 0 255 []) = (255 : Nat) ∧ 255 ≤ 255 := by decide
theorem witness_arith_lowest : spVal (stateAt [] 0 1 []) - 1 = (0 : Nat) ∧ 0 + 1 ≤ 255 := by decide
theorem witness_arith_highest : spVal (stateAt [] 0 255 []) - 1 = (254 : Nat) ∧ 254 + 1 ≤ 255 := by decide
theorem witness_arith_underflow : spVal (stateAt [] 0 0 []) < 1 := by decide
theorem witness_arith_overflow : 255 < spVal (stateAt [] 0 256 []) := by decide
theorem witness_div_completes : spVal (stateAt [] 0 1 [(1, 2)]) - 1 = (0 : Nat) ∧ 0 + 1 ≤ 255 ∧
    readSlot (stateAt [] 0 1 [(1, 2)]) (0 + 1) ≠ 0 := by decide
theorem witness_div_by_zero : spVal (stateAt [] 0 1 [(1, 0)]) = (1 : Nat) ∧ 1 ≤ 1 ∧ 1 ≤ 255 ∧
    readSlot (stateAt [] 0 1 [(1, 0)]) 1 = 0 := by decide
theorem witness_destination_not_ip : Reg.sp ≠ .ip := by decide
theorem witness_psh_then_pop : -1 ≤ spVal (stateAt [] 0 254 []) ∧ spVal (stateAt [] 0 254 []) < 255 := by decide
theorem witness_slot_access : (-1 : Int) < 0 ∧ (255 : Int) < 256 ∧ (255 : Int) = (255 : Nat) ∧ 255 ≤ 255 := by decide
theorem witness_pop_after_push : ∃ t, push 7 (stateAt [] 0 254 []) = .ok t := ⟨_, rfl⟩
theorem witness_two_pops : ∃ s1 s2 s3 t, pop (stateAt [] 0 1 [(0, 3), (1, 4)]) = .ok (4, s1) ∧ pop s1 = .ok (3, s2) ∧
    arithResult .minus 3 4 = .ok (wrap (-1)) ∧ push (wrap (-1)) s2 = .ok s3 ∧
    arith .minus (stateAt [] 0 1 [(0, 3), (1, 4)]) = .ok t := ⟨_, _, _, _, rfl, rfl, rfl, rfl, rfl⟩
theorem witness_two_pops_fault : FaultCause.stackUnderflow ≠ .divisionByZero ∧
    arith .plus (stateAt [] 0 0 []) = .error .stackUnderflow := by decide

/-! ### Witnesses: branches -/

/-- Both ends of the legal range: targets 0 and 4 in a program of five words. -/
theorem witness_if_taken : readReg (stateAt [11, 0, 0, 4, 0] 0 (-1) []) .a = 0 ∧ 0 ≤ (4 : Word).toInt ∧
    (4 : Word).toInt < progLen (stateAt [11, 0, 0, 4, 0] 0 (-1) []) ∧ 0 ≤ (0 : Word).toInt := by decide
theorem witness_if_out_of_range : readReg (stateAt [11, 0, 0, 4] 0 (-1) []) .a = 0 ∧
    (progLen (stateAt [11, 0, 0, 4] 0 (-1) []) : Int) ≤ (4 : Word).toInt ∧ (-1 : Word).toInt < 0 := by decide
theorem witness_if_not_taken : readReg (stateAt [11, 0, 5, 0] 0 (-1) []) .a ≠ 5 := by decide
theorem witness_ifn_taken : readReg (stateAt [12, 0, 5, 3] 0 (-1) []) .a ≠ 5 ∧ 0 ≤ (3 : Word).toInt ∧
    (3 : Word).toInt < progLen (stateAt [12, 0, 5, 3] 0 (-1) []) := by decide
theorem witness_ifn_out_of_range : readReg (stateAt [12, 0, 5, 4] 0 (-1) []) .a ≠ 5 ∧
    (progLen (stateAt [12, 0, 5, 4] 0 (-1) []) : Int) ≤ (4 : Word).toInt := by decide
theorem witness_ifn_not_taken : readReg (stateAt [12, 0, 0, 3] 0 (-1) []) .a = 0 := by decide

/-! ### Witnesses: the step -/

theorem witness_fetch_negative : (stateAt [0] (-1) (-1) []).status = .running ∧ ipVal (stateAt [0] (-1) (-1) []) < 0 := by
  decide
theorem witness_fetch_end : (stateAt [0] 1 (-1) []).status = .running ∧
    (progLen (stateAt [0] 1 (-1) []) : Int) ≤ ipVal (stateAt [0] 1 (-1) []) := by decide
theorem witness_fetch_last : (stateAt [0] 0 (-1) []).status = .running ∧ 0 ≤ ipVal (stateAt [0] 0 (-1) []) ∧
    ipVal (stateAt [0] 0 (-1) []) < progLen (stateAt [0] 0 (-1) []) := by decide
theorem witness_step_runs_decoded : (stateAt [1, 42] 0 (-1) []).status = .running ∧
    progRead (stateAt [1, 42] 0 (-1) []) (ipVal (stateAt [1, 42] 0 (-1) [])) = some 1 ∧
    decode 1 ((stateAt [1, 42] 0 (-1) []).prog.drop ((ipVal (stateAt [1, 42] 0 (-1) [])).toNat + 1)) = .ok (.psh 42) := by
  decide
theorem witness_step_runs_encoded : (stateAt [15, 1, 42] 1 (-1) []).status = .running ∧
    0 ≤ ipVal (stateAt [15, 1, 42] 1 (-1) []) ∧
    ∀ (j : Nat) (w : Word), (encode (.psh 42))[j]? = some w →
      progRead (stateAt [15, 1, 42] 1 (-1) []) (ipVal (stateAt [15, 1, 42] 1 (-1) []) + j) = some w := by
  refine ⟨rfl, by decide, fun j w h => ?_⟩
  match j with
  | 0 => exact h
  | 1 => exact h
  | j + 2 => cases h
theorem witness_unknown_opcode : (stateAt [16] 0 (-1) []).status = .running ∧
    progRead (stateAt [16] 0 (-1) []) (ipVal (stateAt [16] 0 (-1) [])) = some 16 ∧
    ((16 : Word).toInt < 0 ∨ 15 < (16 : Word).toInt) := by decide
theorem witness_truncated : (stateAt [8, 0] 0 (-1) []).status = .running ∧
    progRead (stateAt [8, 0] 0 (-1) []) (ipVal (stateAt [8, 0] 0 (-1) [])) = some (opcodeWord .mov) ∧ 0 < width .mov ∧
    (progLen (stateAt [8, 0] 0 (-1) []) : Int) - 1 < ipVal (stateAt [8, 0] 0 (-1) []) + width .mov := by decide
theorem witness_invalid_register : (stateAt [8, 0, 12] 0 (-1) []).status = .running ∧
    progRead (stateAt [8, 0, 12] 0 (-1) []) (ipVal (stateAt [8, 0, 12] 0 (-1) [])) = some (opcodeWord .mov) ∧
    ipVal (stateAt [8, 0, 12] 0 (-1) []) + width .mov ≤ (progLen (stateAt [8, 0, 12] 0 (-1) []) : Int) - 1 ∧
    2 ∈ registerPositions .mov ∧
    progRead (stateAt [8, 0, 12] 0 (-1) []) (ipVal (stateAt [8, 0, 12] 0 (-1) []) + (2 : Nat)) = some 12 ∧
    NotRegister 12 := by decide
theorem witness_terminal : Terminal (exhaust State.reset) ∧ Steps 1 (exhaust State.reset) (exhaust State.reset) :=
  ⟨by decide, .more (.zero _) rfl⟩
theorem witness_faulting_step : (stateAt [2] 0 (-1) []).status = .running ∧
    ∃ t, step (stateAt [2] 0 (-1) []) = .next t ∧ t.status = .faulted := ⟨rfl, _, rfl, rfl⟩
theorem witness_halting_step : (stateAt [0] 0 (-1) []).status = .running ∧
    ∃ t, step (stateAt [0] 0 (-1) []) = .next t ∧ t.status = .halted := ⟨rfl, _, rfl, rfl⟩
theorem witness_jumping_step : (stateAt [11, 0, 0, 0] 0 (-1) []).status = .running ∧
    ∃ t, step (stateAt [11, 0, 0, 0] 0 (-1) []) = .next t ∧ t.jumped = true := ⟨rfl, _, rfl, rfl⟩
theorem witness_advancing_step : (stateAt [1, 42] 0 (-1) []).status = .running ∧
    fetch (stateAt [1, 42] 0 (-1) []) = .instr (.psh 42) ∧
    ∃ t, step (stateAt [1, 42] 0 (-1) []) = .next t ∧ t.status ≠ .faulted ∧ t.jumped = false ∧
      destination (.psh 42) ≠ some .ip := ⟨rfl, rfl, _, rfl, by decide, rfl, by decide⟩
/-- A step that does change other registers: SET B,9 leaves EX, and A, as they were. -/
theorem witness_register_kept : ∃ t, step (stateAt [9, 1, 9] 0 (-1) []) = .next t ∧
    NotDestination .a (stateAt [9, 1, 9] 0 (-1) []) ∧ Reg.a ≠ .ip ∧ Reg.a ≠ .sp ∧
    ∀ i, Executes i (stateAt [9, 1, 9] 0 (-1) []) → i ≠ .add ∧ i ≠ .mul ∧ i ≠ .div ∧ i ≠ .sub := by
  have hf : fetch (stateAt [9, 1, 9] 0 (-1) []) = .instr (.set .b 9) := by decide
  refine ⟨_, rfl, fun i ⟨_, h⟩ => ?_, by decide, by decide, fun i ⟨_, h⟩ => ?_⟩ <;> rw [hf] at h <;> cases h <;> decide
theorem witness_one_slot_written : ∃ t, step (stateAt [1, 42] 0 (-1) []) = .next t ∧ t.stack = [(0, 42)] := ⟨_, rfl, rfl⟩
theorem witness_event_emitted : ∃ t, step (stateAt [15] 0 (-1) []) = .next t ∧ t.out = [.nopNotice] := ⟨_, rfl, rfl⟩
theorem witness_run : ∃ t, Steps 1 (stateAt [15] 0 (-1) []) t := ⟨_, .more (.zero _) rfl⟩

/-! ### Witnesses: the invariants and the agreement of two machines -/

theorem witness_invariant : MachineInv (stateAt [1, 42] 0 (-1) []) ∧ ∃ t, step (stateAt [1, 42] 0 (-1) []) = .next t :=
  ⟨by decide, _, rfl⟩
/-- One element on the stack, and a POP to come. -/
theorem witness_stack_sound : StackSound (stateAt [2] 0 0 [(0, 42)]) ∧ NotDestination .sp (stateAt [2] 0 0 [(0, 42)]) ∧
    ∃ t, step (stateAt [2] 0 0 [(0, 42)]) = .next t := by
  have hf : fetch (stateAt [2] 0 0 [(0, 42)]) = .instr .pop := by decide
  refine ⟨⟨by decide, fun k hk => ?_⟩, fun i ⟨_, h⟩ => ?_, _, rfl⟩
  · have h0 : spVal (stateAt [2] 0 0 [(0, 42)]) = 0 := by decide
    obtain rfl : k = 0 := by omega
    decide
  · rw [hf] at h; cases h; decide
theorem witness_ip_in_range : IpInRange (stateAt [2] 0 0 [(0, 42)]) ∧ NotDestination .ip (stateAt [2] 0 0 [(0, 42)]) ∧
    ∃ t, step (stateAt [2] 0 0 [(0, 42)]) = .next t := by
  have hf : fetch (stateAt [2] 0 0 [(0, 42)]) = .instr .pop := by decide
  refine ⟨by decide, fun i ⟨_, h⟩ => ?_, _, rfl⟩
  rw [hf] at h; cases h; decide
theorem witness_length_in_range : ([0] : List Word).length ≤ 2147483647 := by decide
/-- The program HLT, SET SP,300 halts before its SET, so no step of its run writes SP. -/
theorem witness_run_without_sp_write :
    (∀ (j : Nat) (u : State), j < 2 → Steps j (resetInput [0, 9, 11, 300] State.reset) u → NotDestination .sp u) ∧
    ∃ t, Steps 2 (resetInput [0, 9, 11, 300] State.reset) t ∧ t.status = .halted ∧ fetch t = .instr (.set .sp 300) := by
  refine ⟨fun j u hj h i ⟨hr, hi⟩ => ?_, _, .more (.more (.zero _) rfl) rfl, by decide, by decide⟩
  cases h with
  | zero =>
    have hf : fetch (resetInput [0, 9, 11, 300] State.reset) = .instr .hlt := by decide
    rw [hf] at hi; cases hi; decide
  | more h1 h2 =>
    cases h1 with
    | zero =>
      cases h2
      exact absurd hr (by decide)
    | more => omega
/-- A terminal state that stands before SET SP,300: nothing is executed there. -/
theorem witness_terminal_not_destination :
    NotDestination .sp { stateAt [9, 11, 300] 0 (-1) [] with status := .halted } := fun _ h => absurd h.1 (by decide)
/-- Two states that differ in the slot above SP only, with a GPT to come. -/
theorem witness_agreement : AgreeUpToTop (stateAt [14, 3] 0 0 [(0, 42)]) (stateAt [14, 3] 0 0 [(0, 42), (1, 9)]) ∧
    NotDestination .sp (stateAt [14, 3] 0 0 [(0, 42)]) ∧
    (∃ t, step (stateAt [14, 3] 0 0 [(0, 42)]) = .next t) ∧ ∃ t, step (stateAt [14, 3] 0 0 [(0, 42), (1, 9)]) = .next t := by
  have hf : fetch (stateAt [14, 3] 0 0 [(0, 42)]) = .instr (.gpt .d) := by decide
  refine ⟨⟨rfl, rfl, rfl, rfl, rfl, rfl, rfl, rfl, fun k hk => ?_⟩, fun i ⟨_, h⟩ => ?_, ⟨_, rfl⟩, _, rfl⟩
  · have h0 : spVal (stateAt [14, 3] 0 0 [(0, 42)]) = 0 := by decide
    obtain rfl : k = 0 := by omega
    rfl
  · rw [hf] at h; cases h; decide

/-! ### Witnesses: the ports -/

theorem witness_status_values : (stateAt [] 0 (-1) []).status = .running ∧ (exhaust State.reset).status = .exhausted ∧
    (afterExec .hlt State.reset).status = .halted ∧ (raise .unknownOpcode 16 State.reset).status = .faulted := by decide
theorem witness_debug_port : (exhaust State.reset).status ≠ .running ∧ 255 ≤ 255 := by decide

end Sys2Proof.Tests
end

section
/-! PROOFS. The word reduction `wrap` (R7): when two integers reduce to the same word, and which word that is. -/

namespace Sys2Proof.Machine

/-- The value of a wrapped integer is its residue modulo 2^32 nearest to 0, of the two's-complement range (R6, R7). -/
theorem toInt_wrap_eq_bmod (v : Int) : (wrap v).toInt = v.bmod 4294967296 := BitVec.toInt_ofInt v

/-- Two integers have the same word exactly when they are congruent modulo 2^32. -/
theorem wrap_eq_wrap_iff {a b : Int} : wrap a = wrap b ↔ (4294967296 : Int) ∣ a - b :=
  calc wrap a = wrap b
    _ ↔ a.bmod 4294967296 = b.bmod 4294967296 := by
      rw [← BitVec.toInt_inj, toInt_wrap_eq_bmod, toInt_wrap_eq_bmod]
    _ ↔ (a - b).bmod 4294967296 = 0 := Int.bmod_eq_bmod_iff_bmod_sub_eq_zero
    _ ↔ (4294967296 : Int) ∣ a - b := Int.dvd_iff_bmod_eq_zero.symm

/-- Settles O1: a word is the wrap of its own value, so the claim is that two wraps agree exactly on congruent integers. -/
theorem wrapIsUniqueCongruentWord : Obligations.WrapIsUniqueCongruentWord := by
  intro v w
  have hw : w = wrap v ↔ wrap w.toInt = wrap v := by rw [wrap_toInt]
  exact hw.trans wrap_eq_wrap_iff

end Sys2Proof.Machine
end

section
/-! PROOFS. A whole step said once: the five ways it can go, when a branch is taken, and what follows of status, `J`, IP,
the registers and the output. -/

namespace Sys2Proof.Machine

/-! ### The outcomes of a step (R71 to R77) -/

/-- The five ways a step can go, with the state each leads to. -/
inductive StepOutcome (s : State) : State → Prop where
  /-- A terminal state stays as it is (R76). -/
  | terminal (hs : s.status ≠ .running) : StepOutcome s s
  /-- The fetch or the decode stage faults (R71, R72). -/
  | fetchFault {c : FaultCause} {op : Word} (hs : s.status = .running) (hf : fetch s = .fault c op) :
      StepOutcome s (raise c op s)
  /-- The fetch stage finds the end of the program (R71). -/
  | exhausted (hs : s.status = .running) (hf : fetch s = .exhausted) : StepOutcome s (exhaust s)
  /-- The execute stage faults (R73, R77). -/
  | bodyFault {i : Instr} {c : FaultCause} (hs : s.status = .running) (hf : fetch s = .instr i)
      (hb : body i (clearJumped s) = .error c) : StepOutcome s (raise c (opcodeWord i.opcode) s)
  /-- The instruction completes: the advance and status stages follow (R74, R75). -/
  | completed {i : Instr} {u : State} (hs : s.status = .running) (hf : fetch s = .instr i)
      (hb : body i (clearJumped s) = .ok u) : StepOutcome s (statusStage i.opcode (advance i.opcode u))

theorem step_outcome {s t : State} (h : step s = .next t) : StepOutcome s t := by
  rcases step_cases h with ⟨hs, rfl⟩ | ⟨hs, ⟨c, op, hf, rfl⟩ | ⟨hf, rfl⟩ | ⟨i, hf, he⟩⟩
  · exact .terminal hs
  · exact .fetchFault hs hf
  · exact .exhausted hs hf
  · rcases exec_cases he with ⟨c, hb, rfl⟩ | ⟨u, hb, rfl⟩
    · exact .bodyFault hs hf hb
    · exact .completed hs hf hb

/-- A step has one outcome, so each of the five determines the next state. -/
theorem step_of_outcome {s t : State} (h : StepOutcome s t) : step s = .next t := by
  cases h with
  | terminal hs =>
    unfold step
    split
    · next hr => exact absurd hr hs
    all_goals rfl
  | fetchFault hs hf => simp [step, hs, runningStep, hf]
  | exhausted hs hf => simp [step, hs, runningStep, hf]
  | bodyFault hs hf hb => simp [step, hs, runningStep, hf, exec_of_body_error hb]
  | completed hs hf hb => simp [step, hs, runningStep, hf, exec_of_body_ok hb]

/-- The fetch stage ends the run only at or beyond the end of the program (R71). -/
theorem progLen_le_of_fetch_exhausted {s : State} (h : fetch s = .exhausted) : (progLen s : Int) ≤ ipVal s := by
  rcases fetch_cases s with ⟨-, hf⟩ | ⟨hge, -⟩ | ⟨op, -, -, -, ⟨e, -, hf⟩ | ⟨i, -, hf⟩⟩
  · rw [hf] at h; cases h
  · exact hge
  · rw [hf] at h; cases h
  · rw [hf] at h; cases h

/-! ### Taken branches (R140 to R143) -/

/-- Instruction `i` in state `s` is an IF or IFN whose condition holds and whose target is inside the program. -/
def TakesBranch (i : Instr) (target : Word) (s : State) : Prop :=
  (0 ≤ target.toInt ∧ target.toInt < progLen s) ∧
  ∃ (rm : Reg) (val : Word),
    (i = .ifEq rm val target ∧ readReg s rm = val) ∨ (i = .ifNe rm val target ∧ readReg s rm ≠ val)

/-- A taken branch sets IP and `J` and does nothing else (R140, R141). -/
theorem body_of_takesBranch {i : Instr} {target : Word} {s : State} (h : TakesBranch i target s) :
    body i s = .ok (setJumped (writeReg .ip target s)) := by
  obtain ⟨hrange, rm, val, ⟨rfl, hc⟩ | ⟨rfl, hc⟩⟩ := h
  · rw [body, if_pos hc]
    exact takeBranch_eq_ok.2 ⟨hrange, rfl⟩
  · rw [body, if_pos hc]
    exact takeBranch_eq_ok.2 ⟨hrange, rfl⟩

theorem arith_jumped {sym : ArithSym} {s u : State} (h : arith sym s = .ok u) : u.jumped = s.jumped := by
  obtain ⟨k, -, -, -, rfl⟩ := arith_eq_ok.1 h
  rfl

/-- An execute stage that takes no branch leaves `J` alone (R20). -/
theorem body_jump_cases {i : Instr} {s u : State} (h : body i s = .ok u) :
    (∃ target, TakesBranch i target s) ∨ u.jumped = s.jumped := by
  cases i with
  | ifEq rm val target =>
    simp only [body] at h
    split_ifs at h with hc
    · exact .inl ⟨target, (takeBranch_eq_ok.1 h).1, rm, val, .inl ⟨rfl, hc⟩⟩
    · cases h; exact .inr rfl
  | ifNe rm val target =>
    simp only [body] at h
    split_ifs at h with hc
    · exact .inl ⟨target, (takeBranch_eq_ok.1 h).1, rm, val, .inr ⟨rfl, hc⟩⟩
    · cases h; exact .inr rfl
  | psh | gld => obtain ⟨k, -, -, rfl⟩ := push_eq_ok.1 h; exact .inr rfl
  | pop => obtain ⟨k, -, -, rfl⟩ := discardTop_eq_ok.1 h; exact .inr rfl
  | add => exact .inr (arith_jumped (sym := .plus) h)
  | mul => exact .inr (arith_jumped (sym := .times) h)
  | div => exact .inr (arith_jumped (sym := .divide) h)
  | sub => exact .inr (arith_jumped (sym := .minus) h)
  | slt => obtain ⟨k, -, -, rfl⟩ := compareTopTwo_eq_ok.1 h; exact .inr rfl
  | gpt => obtain ⟨k, -, -, rfl⟩ := copyTop_eq_ok.1 h; exact .inr rfl
  | hlt | mov | set | log | nop => cases h; exact .inr rfl

/-- Where the execute stage of a step leaves `J` true, the branch taken is the whole of what it did. -/
theorem takesBranch_of_jumped {i : Instr} {s u : State} (h : body i (clearJumped s) = .ok u) (hj : u.jumped = true) :
    ∃ target, TakesBranch i target (clearJumped s) ∧ u = setJumped (writeReg .ip target (clearJumped s)) := by
  rcases body_jump_cases h with ⟨target, hb⟩ | hsame
  · rw [body_of_takesBranch hb] at h
    cases h
    exact ⟨target, hb, rfl⟩
  · rw [hsame] at hj; cases hj

/-! ### Status and `J` after a step (R19, R20) -/

theorem opcode_eq_hlt {i : Instr} : i.opcode = .hlt ↔ i = .hlt := by
  cases i <;> simp [Instr.opcode]

/-- Settles O40: of the outcomes of a step from `Running`, only a completed HLT halts and only the fetch stage's end
exhausts. -/
theorem runEndsOnlyByItsRule : Obligations.RunEndsOnlyByItsRule := by
  intro s t hs h
  cases step_outcome h with
  | terminal hns => exact absurd hs hns
  | fetchFault _ hf => simp [hf]
  | exhausted _ hf => simp [hf]
  | @bodyFault i c _ hf hb =>
    have hi : i ≠ .hlt := by rintro rfl; cases hb
    simp [hf, hi]
  | @completed i u _ hf hb =>
    have hu : u.status = .running := (body_frame hb).status.trans hs
    by_cases hi : i = .hlt <;> simp [hf, hu, opcode_eq_hlt, hi]

/-- `J` after a step says whether the fetched instruction takes its branch. -/
theorem jumped_iff_takesBranch {s t : State} (hs : s.status = .running) (h : step s = .next t) :
    t.jumped = true ↔ ∃ i target, fetch s = .instr i ∧ TakesBranch i target (clearJumped s) := by
  cases step_outcome h with
  | terminal hns => exact absurd hs hns
  | fetchFault _ hf => simp [hf]
  | exhausted _ hf => simp [hf]
  | bodyFault _ hf hb =>
    simp only [raise_jumped, Bool.false_eq_true, false_iff]
    rintro ⟨j, target, hj, htb⟩
    rw [hf] at hj; cases hj
    rw [body_of_takesBranch htb] at hb; cases hb
  | @completed i u _ hf hb =>
    simp only [statusStage_jumped, advance_jumped]
    constructor
    · intro hj
      obtain ⟨target, htb, -⟩ := takesBranch_of_jumped hb hj
      exact ⟨i, target, hf, htb⟩
    · rintro ⟨j, target, hj, htb⟩
      rw [hf] at hj; cases hj
      rw [body_of_takesBranch htb] at hb; cases hb
      rfl

/-- Settles O41: `J` is cleared at the start of a step, and only a taken branch, an IF's or an IFN's, sets it. -/
theorem jumpedExactlyByTakenBranch : Obligations.JumpedExactlyByTakenBranch := by
  intro s t hs h
  rw [jumped_iff_takesBranch hs h]
  constructor
  · rintro ⟨i, target, hf, ⟨h0, h1⟩, rm, val, ⟨rfl, hc⟩ | ⟨rfl, hc⟩⟩
    · exact ⟨rm, val, target, h0, h1, .inl ⟨hf, hc⟩⟩
    · exact ⟨rm, val, target, h0, h1, .inr ⟨hf, hc⟩⟩
  · rintro ⟨rm, val, target, h0, h1, ⟨hf, hc⟩ | ⟨hf, hc⟩⟩
    · exact ⟨_, target, hf, ⟨h0, h1⟩, rm, val, .inl ⟨rfl, hc⟩⟩
    · exact ⟨_, target, hf, ⟨h0, h1⟩, rm, val, .inr ⟨rfl, hc⟩⟩

/-! ### IP, the other registers and the output after a step (R12, R15, R22) -/

/-- IP after an instruction that takes no branch and does not write IP (R15, R74). -/
theorem readReg_ip_of_completed {i : Instr} {s u : State} (hb : body i (clearJumped s) = .ok u)
    (hj : u.jumped = false) (hd : destination i ≠ some .ip) :
    readReg (statusStage i.opcode (advance i.opcode u)) .ip = wrap (ipVal s + 1 + width i.opcode) := by
  have hip : ipVal u = ipVal s := congrArg BitVec.toInt ((body_frame hb).ip hd hj)
  simp [hj, hip]

/-- Settles O42: the frame of the execute stage keeps IP, and the advance stage moves it. -/
theorem ipAdvancesPastOperands : Obligations.IpAdvancesPastOperands := by
  intro s t i hs hi h hnf hj hd
  cases step_outcome h with
  | terminal hns => exact absurd hs hns
  | fetchFault => exact absurd (raise_status ..) hnf
  | exhausted _ hf => rw [hf] at hi; cases hi
  | bodyFault => exact absurd (raise_status ..) hnf
  | completed _ hf hb =>
    rw [hf] at hi; cases hi
    exact readReg_ip_of_completed hb (by simpa using hj) hd

/-- Settles O43: the frame of the execute stage; the advance stage writes only IP. -/
theorem registersChangeOnlyAsNamed : Obligations.RegistersChangeOnlyAsNamed := by
  intro s t r h hnd hip hsp habc
  cases step_outcome h with
  | terminal => rfl
  | fetchFault => rfl
  | exhausted => rfl
  | bodyFault => rfl
  | @completed i u hs hf hb =>
    have hkeep := (body_frame hb).regs r (hnd i ⟨hs, hf⟩) hsp hip fun hr => habc hr i ⟨hs, hf⟩
    simpa [hip] using hkeep

/-- Settles O45: only the execute stage emits, and at most once. -/
theorem outOnlyGrows : Obligations.OutOnlyGrows := by
  intro s t h
  cases step_outcome h with
  | terminal => exact ⟨[], by simp⟩
  | fetchFault => exact ⟨[], by simp⟩
  | exhausted => exact ⟨[], by simp⟩
  | bodyFault => exact ⟨[], by simp⟩
  | completed _ _ hb => simpa using (body_frame hb).out

end Sys2Proof.Machine
end

section
/-! PROOFS. The invariants every step keeps (R26, R78): the machine invariant and the range of IP. -/

namespace Sys2Proof.Machine

/-! ### The machine invariant -/

/-- The execute stage keeps the canonical form of the stack storage. -/
theorem body_stack_wf {i : Instr} {s u : State} (hb : body i s = .ok u) (hwf : Memory.wf s.stack) :
    Memory.wf u.stack := by
  rcases (body_frame hb).stack with hst | ⟨k, v, -, hk, hst⟩
  · rwa [hst]
  · rw [hst]; exact Memory.wf_write hwf hk

/-- A state with a clear record that has not faulted meets the fault record's invariant. -/
theorem faultRecordWf_of_clear {s : State} (hst : s.status ≠ .faulted) (hc : s.fcause = none) (hip : s.fip = 0)
    (hop : s.fop = 0) : FaultRecordWf s :=
  ⟨by simp [hst, hc], fun _ => ⟨hip, hop⟩, fun hne => absurd hc hne⟩

/-- While the status is `Running` the fault record is clear (R24, R26 b). -/
theorem record_clear_of_running {s : State} (hw : FaultRecordWf s) (hs : s.status = .running) :
    s.fcause = none ∧ s.fip = 0 ∧ s.fop = 0 := by
  obtain ⟨hiff, hzero, -⟩ := hw
  have hc : s.fcause = none := by
    by_contra hne
    have := hiff.2 hne
    rw [hs] at this; cases this
  exact ⟨hc, hzero hc⟩

/-- A fault taken leaves the machine invariant, whatever held of the record before (R171). -/
theorem machineInv_raise {s : State} (hwf : Memory.wf s.stack) (c : FaultCause) (op : Word) :
    MachineInv (raise c op s) :=
  ⟨hwf, ⟨by simp, by simp, fun _ => rfl⟩, ⟨by simp, by simp⟩, by simp [JumpedWf]⟩

/-- The end of the program leaves the machine invariant (R71). -/
theorem machineInv_exhaust {s : State} (hwf : Memory.wf s.stack)
    (hclear : s.fcause = none ∧ s.fip = 0 ∧ s.fop = 0) (hf : fetch s = .exhausted) : MachineInv (exhaust s) := by
  obtain ⟨hc, hip, hop⟩ := hclear
  exact ⟨hwf, faultRecordWf_of_clear (by simp) hc hip hop,
    ⟨by simp, fun _ => progLen_le_of_fetch_exhausted hf⟩, by simp [JumpedWf]⟩

/-- A completed instruction leaves the marks of a run's end: HLT its notice, any other no end (R75, R150). -/
theorem endWf_of_completed {i : Instr} {s u : State} (hs : s.status = .running)
    (hb : body i (clearJumped s) = .ok u) : EndWf (statusStage i.opcode (advance i.opcode u)) := by
  have hu : u.status = .running := (body_frame hb).status.trans hs
  by_cases hi : i = .hlt
  · subst hi
    cases hb
    exact ⟨by simp, by simp [Instr.opcode]⟩
  · exact ⟨by simp [opcode_eq_hlt, hi, hu], by simp [opcode_eq_hlt, hi, hu]⟩

/-- A completed instruction that leaves `J` true is a branch, so the run goes on at its target (R20, R142). -/
theorem jumpedWf_of_completed {i : Instr} {s u : State} (hs : s.status = .running)
    (hb : body i (clearJumped s) = .ok u) : JumpedWf (statusStage i.opcode (advance i.opcode u)) := by
  intro hj
  obtain ⟨target, ⟨⟨h0, h1⟩, rm, val, ⟨rfl, -⟩ | ⟨rfl, -⟩⟩, rfl⟩ := takesBranch_of_jumped hb (by simpa using hj)
  · exact ⟨hs, h0, h1⟩
  · exact ⟨hs, h0, h1⟩

theorem machineInv_completed {i : Instr} {s u : State} (hwf : Memory.wf s.stack)
    (hclear : s.fcause = none ∧ s.fip = 0 ∧ s.fop = 0) (hs : s.status = .running)
    (hb : body i (clearJumped s) = .ok u) : MachineInv (statusStage i.opcode (advance i.opcode u)) := by
  obtain ⟨hc, hip, hop⟩ := hclear
  have hframe := body_frame hb
  have hu : u.status = .running := hframe.status.trans hs
  refine ⟨by simpa using body_stack_wf hb hwf, faultRecordWf_of_clear ?_ ?_ ?_ ?_, endWf_of_completed hs hb,
    jumpedWf_of_completed hs hb⟩
  · rw [statusStage_status, advance_status, hu]; split_ifs <;> simp
  · simpa using hframe.fcause.trans hc
  · simpa using hframe.fip.trans hip
  · simpa using hframe.fop.trans hop

/-- Settles O47, by the outcome of the step; the record is clear where the step starts from `Running`. -/
theorem stepKeepsInvariant : Obligations.StepKeepsInvariant := by
  intro s t hinv h
  have ⟨hwf, hrec, _, _⟩ := hinv
  cases step_outcome h with
  | terminal => exact hinv
  | fetchFault => exact machineInv_raise hwf _ _
  | exhausted hs hf => exact machineInv_exhaust hwf (record_clear_of_running hrec hs) hf
  | bodyFault => exact machineInv_raise hwf _ _
  | completed hs _ hb => exact machineInv_completed hwf (record_clear_of_running hrec hs) hs hb

/-! ### IP in 0..`PROG_LEN` (R26 f) -/

/-- A completed instruction that does not write IP directly leaves IP at its branch target or just behind its own words,
which lie inside the program (R15, R58). -/
theorem ipVal_completed_range {i : Instr} {s u : State} (hlen : progLen s ≤ Config.progLenMax)
    (hf : fetch s = .instr i) (hb : body i (clearJumped s) = .ok u) (hd : destination i ≠ some .ip) :
    0 ≤ ipVal (statusStage i.opcode (advance i.opcode u)) ∧
      ipVal (statusStage i.opcode (advance i.opcode u)) ≤ progLen s := by
  cases hj : u.jumped with
  | true =>
    obtain ⟨target, ⟨⟨h0, h1⟩, -⟩, rfl⟩ := takesBranch_of_jumped hb hj
    have hip : ipVal (statusStage i.opcode (advance i.opcode (setJumped (writeReg .ip target (clearJumped s))))) =
        target.toInt := by simp [ipVal]
    rw [progLen_clearJumped] at h1
    omega
  | false =>
    obtain ⟨h0, hfit⟩ := fetch_instr_fits hf
    have hmax : (progLen s : Int) ≤ 2147483647 := by exact_mod_cast hlen
    have hip : ipVal (statusStage i.opcode (advance i.opcode u)) = ipVal s + 1 + width i.opcode := by
      rw [ipVal, readReg_ip_of_completed hb hj hd, toInt_wrap (by omega) (by omega)]
    omega

/-- Settles O50: only a completed instruction moves IP. -/
theorem stepKeepsIpInRange : Obligations.StepKeepsIpInRange := by
  intro s t hr hnd h
  cases step_outcome h with
  | terminal => exact hr
  | fetchFault => exact hr
  | exhausted => exact hr
  | bodyFault => exact hr
  | @completed i u hs hf hb =>
    have hlen : progLen (statusStage i.opcode (advance i.opcode u)) = progLen s :=
      congrArg List.length (by simpa using (body_frame hb).prog)
    have hmax : progLen s ≤ Config.progLenMax := hr.1
    rw [IpInRange, hlen]
    exact ⟨hmax, ipVal_completed_range hmax hf hb (hnd i ⟨hs, hf⟩)⟩

end Sys2Proof.Machine
end

section
/-! PROOFS. A sound stack (R26 e): what an instruction that does not write SP directly does to SP and the storage, and
that this keeps the live slots written. -/

namespace Sys2Proof.Machine

/-! ### The stack effect of an execute stage -/

/-- The four things an instruction that does not write SP directly can do to SP and the stack storage. -/
inductive StackEffect (s u : State) : Prop where
  | keep (hsp : spVal u = spVal s) (hst : u.stack = s.stack)
  | push (k : Nat) (v : Word) (hk : spVal s + 1 = k) (hlt : k < 256) (hsp : spVal u = k)
      (hst : u.stack = Memory.write s.stack k v)
  | pop (k : Nat) (hk : spVal s = k) (hlt : k < 256) (hsp : spVal u = (k : Int) - 1) (hst : u.stack = s.stack)
  | replace (k : Nat) (v : Word) (hk : spVal s = (k : Int) + 1) (hlt : k < 255) (hsp : spVal u = k)
      (hst : u.stack = Memory.write s.stack k v)

theorem stackEffect_push {v : Word} {s u : State} (h : push v s = .ok u) : StackEffect s u := by
  obtain ⟨k, hk, hlt, rfl⟩ := push_eq_ok.1 h
  exact .push k v hk hlt (by simpa using toInt_wrap (by omega) (by omega)) rfl

theorem stackEffect_arith {sym : ArithSym} {s u : State} (h : arith sym s = .ok u) : StackEffect s u := by
  obtain ⟨k, hk, hlt, -, rfl⟩ := arith_eq_ok.1 h
  exact .replace k _ hk hlt (by simpa using toInt_wrap (by omega) (by omega)) rfl

theorem stackEffect_takeBranch {target : Word} {s u : State} (h : takeBranch target s = .ok u) : StackEffect s u := by
  obtain ⟨-, rfl⟩ := takeBranch_eq_ok.1 h
  exact .keep (by simp) rfl

/-- A write of a register other than SP has no effect on the stack. -/
theorem stackEffect_writeReg {r : Reg} {v : Word} {s : State} (hr : r ≠ .sp) : StackEffect s (writeReg r v s) :=
  .keep (by simp [hr]) rfl

/-- The stack effect of every instruction that does not write SP directly (R16). -/
theorem body_stackEffect {i : Instr} {s u : State} (h : body i s = .ok u) (hd : destination i ≠ some .sp) :
    StackEffect s u := by
  cases i with
  | psh | gld => exact stackEffect_push h
  | add => exact stackEffect_arith (sym := .plus) h
  | mul => exact stackEffect_arith (sym := .times) h
  | div => exact stackEffect_arith (sym := .divide) h
  | sub => exact stackEffect_arith (sym := .minus) h
  | pop =>
    obtain ⟨k, hk, hlt, rfl⟩ := discardTop_eq_ok.1 h
    exact .pop k hk hlt (by simpa using toInt_wrap (by omega) (by omega)) rfl
  | slt =>
    obtain ⟨k, hk, hlt, rfl⟩ := compareTopTwo_eq_ok.1 h
    exact .replace k _ hk hlt (by simpa using toInt_wrap (by omega) (by omega)) rfl
  | mov rsrc rdst => cases h; exact stackEffect_writeReg fun hr => hd (congrArg some hr)
  | set rdst val => cases h; exact stackEffect_writeReg fun hr => hd (congrArg some hr)
  | gpt rm =>
    obtain ⟨k, -, -, rfl⟩ := copyTop_eq_ok.1 h
    exact stackEffect_writeReg fun hr => hd (congrArg some hr)
  | ifEq =>
    simp only [body] at h
    split_ifs at h
    · exact stackEffect_takeBranch h
    · cases h; exact .keep rfl rfl
  | ifNe =>
    simp only [body] at h
    split_ifs at h
    · exact stackEffect_takeBranch h
    · cases h; exact .keep rfl rfl
  | hlt | log | nop => cases h; exact .keep rfl rfl

/-! ### The stack stays sound -/

/-- A sound stack depends on SP and the storage alone. -/
theorem stackSound_congr {s t : State} (hsp : spVal t = spVal s) (hst : t.stack = s.stack) (h : StackSound s) :
    StackSound t := by
  simpa only [StackSound, SpInRange, Written, hsp, hst] using h

/-- The written slot and the slots written before are written after a slot write (R18). -/
theorem written_write {m : Memory} {k j : Nat} {v : Word} (h : j = k ∨ Memory.find m j ≠ none) :
    Memory.find (Memory.write m k v) j ≠ none := by
  rw [Memory.find_write]
  split_ifs with hj
  · simp
  · exact h.resolve_left hj

/-- Every stack effect keeps the stack sound: SP moves by at most one inside −1..255, up only onto the slot written. -/
theorem stackSound_of_effect {s u : State} (h : StackSound s) (he : StackEffect s u) : StackSound u := by
  cases he with
  | keep hsp hst => exact stackSound_congr hsp hst h
  | push k v hk hlt hsp hst =>
    obtain ⟨-, hw⟩ := h
    refine ⟨by constructor <;> omega, fun j hj => ?_⟩
    rw [Written, hst]
    exact written_write (or_iff_not_imp_left.2 fun hne => hw j (by omega))
  | pop k hk hlt hsp hst =>
    obtain ⟨-, hw⟩ := h
    refine ⟨by constructor <;> omega, fun j hj => ?_⟩
    rw [Written, hst]
    exact hw j (by omega)
  | replace k v hk hlt hsp hst =>
    obtain ⟨-, hw⟩ := h
    refine ⟨by constructor <;> omega, fun j hj => ?_⟩
    rw [Written, hst]
    exact written_write (.inr (hw j (by omega)))

/-- The advance and status stages do not touch SP. -/
theorem spVal_completed (o : Opcode) (u : State) : spVal (statusStage o (advance o u)) = spVal u := by
  simp [spVal]

/-- Settles O49, by the stack effect of the instruction that completes. -/
theorem stepKeepsStackSound : Obligations.StepKeepsStackSound := by
  intro s t hsound hnd h
  cases step_outcome h with
  | terminal => exact hsound
  | fetchFault => exact stackSound_congr rfl rfl hsound
  | exhausted => exact stackSound_congr rfl rfl hsound
  | bodyFault => exact stackSound_congr rfl rfl hsound
  | @completed i u hs hf hb =>
    have hstart : StackSound (clearJumped s) := stackSound_congr rfl rfl hsound
    have hu : StackSound u := stackSound_of_effect hstart (body_stackEffect hb (hnd i ⟨hs, hf⟩))
    exact stackSound_congr (spVal_completed _ _) (by simp) hu

end Sys2Proof.Machine
end

section
/-! PROOFS. Noninterference (R18, R24): two states that agree up to the top of the stack stay so, since no operation that
leaves SP to the stack reads above it. -/

namespace Sys2Proof.Machine

/-! ### What agreement gives and which updates keep it -/

namespace AgreeUpToTop

variable {s t : State}

theorem readReg_eq (h : AgreeUpToTop s t) (r : Reg) : readReg s r = readReg t r := by
  obtain ⟨hregs, -⟩ := h
  rw [readReg, readReg, hregs]

theorem spVal_eq (h : AgreeUpToTop s t) : spVal s = spVal t := congrArg BitVec.toInt (h.readReg_eq .sp)

theorem ipVal_eq (h : AgreeUpToTop s t) : ipVal s = ipVal t := congrArg BitVec.toInt (h.readReg_eq .ip)

theorem readSlot_eq (h : AgreeUpToTop s t) {k : Nat} (hk : (k : Int) ≤ spVal s) : readSlot s k = readSlot t k := by
  obtain ⟨-, -, -, -, -, -, -, -, hslots⟩ := h
  exact hslots k hk

theorem status_eq (h : AgreeUpToTop s t) : s.status = t.status := by
  obtain ⟨-, hstatus, -⟩ := h
  exact hstatus

theorem jumped_eq (h : AgreeUpToTop s t) : s.jumped = t.jumped := by
  obtain ⟨-, -, hjumped, -⟩ := h
  exact hjumped

theorem prog_eq (h : AgreeUpToTop s t) : s.prog = t.prog := by
  obtain ⟨-, -, -, -, -, -, -, hprog, -⟩ := h
  exact hprog

theorem progLen_eq (h : AgreeUpToTop s t) : progLen s = progLen t := congrArg List.length h.prog_eq

/-- The fetch and decode stages see only IP and the program (R71, R72). -/
theorem fetch_eq (h : AgreeUpToTop s t) : fetch s = fetch t := by
  simp only [fetch, progRead, h.ipVal_eq, h.prog_eq]

theorem clearJumped (h : AgreeUpToTop s t) : AgreeUpToTop (clearJumped s) (clearJumped t) := by
  obtain ⟨hregs, hstatus, -, hcause, hfip, hfop, hout, hprog, hslots⟩ := h
  exact ⟨hregs, hstatus, rfl, hcause, hfip, hfop, hout, hprog, hslots⟩

theorem setJumped (h : AgreeUpToTop s t) : AgreeUpToTop (setJumped s) (setJumped t) := by
  obtain ⟨hregs, hstatus, -, hcause, hfip, hfop, hout, hprog, hslots⟩ := h
  exact ⟨hregs, hstatus, rfl, hcause, hfip, hfop, hout, hprog, hslots⟩

theorem emit (h : AgreeUpToTop s t) (e : Event) : AgreeUpToTop (emit e s) (emit e t) := by
  obtain ⟨hregs, hstatus, hjumped, hcause, hfip, hfop, hout, hprog, hslots⟩ := h
  exact ⟨hregs, hstatus, hjumped, hcause, hfip, hfop, by simp [hout], hprog, hslots⟩

theorem exhaust (h : AgreeUpToTop s t) : AgreeUpToTop (exhaust s) (exhaust t) := by
  obtain ⟨hregs, -, -, hcause, hfip, hfop, hout, hprog, hslots⟩ := h
  exact ⟨hregs, rfl, rfl, hcause, hfip, hfop, hout, hprog, hslots⟩

theorem raise (h : AgreeUpToTop s t) (c : FaultCause) (op : Word) : AgreeUpToTop (raise c op s) (raise c op t) := by
  have hip := h.readReg_eq .ip
  obtain ⟨hregs, -, -, -, -, -, hout, hprog, hslots⟩ := h
  exact ⟨hregs, rfl, rfl, rfl, hip, rfl, hout, hprog, hslots⟩

/-- A register write keeps agreement where it does not raise SP. -/
theorem writeReg (h : AgreeUpToTop s t) {r : Reg} {v : Word} (hv : r = .sp → v.toInt ≤ spVal s) :
    AgreeUpToTop (writeReg r v s) (writeReg r v t) := by
  obtain ⟨hregs, hstatus, hjumped, hcause, hfip, hfop, hout, hprog, hslots⟩ := h
  refine ⟨by simp [hregs], hstatus, hjumped, hcause, hfip, hfop, hout, hprog, fun k hk => hslots k ?_⟩
  rw [spVal_writeReg] at hk
  split_ifs at hk with hr
  · exact le_trans hk (hv hr)
  · exact hk

/-- Storing one word in both states and putting SP on it keeps agreement where SP rises by one slot at most: the only
slot that can come into view is the one written. -/
theorem storeTop (h : AgreeUpToTop s t) {k : Nat} (v : Word) (hk : k < 256) (hle : (k : Int) ≤ spVal s + 1) :
    AgreeUpToTop (writeSlot k v (Machine.writeReg .sp (wrap k) s))
      (writeSlot k v (Machine.writeReg .sp (wrap k) t)) := by
  obtain ⟨hregs, hstatus, hjumped, hcause, hfip, hfop, hout, hprog, hslots⟩ := h
  refine ⟨by simp [hregs], hstatus, hjumped, hcause, hfip, hfop, hout, hprog, fun j hj => ?_⟩
  have hsp : spVal (writeSlot k v (Machine.writeReg .sp (wrap k) s)) = k := by
    simpa using toInt_wrap (by omega) (by omega)
  rw [hsp] at hj
  by_cases hjk : j = k
  · simp [hjk]
  · simpa [hjk] using hslots j (by omega)

theorem advance (h : AgreeUpToTop s t) (o : Opcode) : AgreeUpToTop (advance o s) (advance o t) := by
  unfold Machine.advance
  rw [h.jumped_eq, h.ipVal_eq]
  split_ifs
  · exact h
  · exact h.writeReg (by simp)

theorem statusStage (h : AgreeUpToTop s t) (o : Opcode) : AgreeUpToTop (statusStage o s) (statusStage o t) := by
  cases o with
  | hlt =>
    obtain ⟨hregs, -, hjumped, hcause, hfip, hfop, hout, hprog, hslots⟩ := h
    exact ⟨hregs, rfl, hjumped, hcause, hfip, hfop, hout, hprog, hslots⟩
  | _ => exact h

end AgreeUpToTop

/-! ### Agreement of what two execute stages answer -/

/-- Two execute stages answer alike: the same fault, or states that agree up to the top of the stack. -/
inductive AgreeResults : Except FaultCause State → Except FaultCause State → Prop where
  | error (c : FaultCause) : AgreeResults (.error c) (.error c)
  | ok {u v : State} (h : AgreeUpToTop u v) : AgreeResults (.ok u) (.ok v)

section
variable {s t : State}

theorem agree_push (h : AgreeUpToTop s t) (v : Word) : AgreeResults (push v s) (push v t) := by
  cases hp : push v s with
  | error c =>
    rw [push_eq_error, h.spVal_eq] at hp
    rw [push_eq_error.2 hp]
    exact .error c
  | ok u =>
    obtain ⟨k, hk, hlt, rfl⟩ := push_eq_ok.1 hp
    rw [push_eq_ok.2 ⟨k, h.spVal_eq ▸ hk, hlt, rfl⟩]
    exact .ok (h.storeTop v hlt hk.ge)

theorem agree_discardTop (h : AgreeUpToTop s t) : AgreeResults (discardTop s) (discardTop t) := by
  cases hp : discardTop s with
  | error c =>
    rw [discardTop_eq_error, h.spVal_eq] at hp
    rw [discardTop_eq_error.2 hp]
    exact .error c
  | ok u =>
    obtain ⟨k, hk, hlt, rfl⟩ := discardTop_eq_ok.1 hp
    rw [discardTop_eq_ok.2 ⟨k, h.spVal_eq ▸ hk, hlt, rfl⟩]
    have hw : (wrap ((k : Int) - 1)).toInt = (k : Int) - 1 := toInt_wrap (by omega) (by omega)
    exact .ok (h.writeReg fun _ => by omega)

theorem agree_copyTop (h : AgreeUpToTop s t) {rm : Reg} (hrm : rm ≠ .sp) :
    AgreeResults (copyTop rm s) (copyTop rm t) := by
  cases hp : copyTop rm s with
  | error c =>
    rw [copyTop_eq_error, h.spVal_eq] at hp
    rw [copyTop_eq_error.2 hp]
    exact .error c
  | ok u =>
    obtain ⟨k, hk, hlt, rfl⟩ := copyTop_eq_ok.1 hp
    rw [copyTop_eq_ok.2 ⟨k, h.spVal_eq ▸ hk, hlt, rfl⟩, ← h.readSlot_eq hk.ge]
    exact .ok (h.writeReg fun hr => absurd hr hrm)

theorem agree_arith (h : AgreeUpToTop s t) (sym : ArithSym) : AgreeResults (arith sym s) (arith sym t) := by
  cases hp : arith sym s with
  | error c =>
    have ht : arith sym t = .error c := by
      rw [arith_eq_error] at hp ⊢
      rw [← h.spVal_eq]
      rcases hp with hlo | hhi | ⟨k, hk, hlt, hz, hdiv, hc⟩
      · exact .inl hlo
      · exact .inr (.inl hhi)
      · exact .inr (.inr ⟨k, hk, hlt, by rw [← h.readSlot_eq (by omega), hz], hdiv, hc⟩)
    rw [ht]
    exact .error c
  | ok u =>
    obtain ⟨k, hk, hlt, hz, rfl⟩ := arith_eq_ok.1 hp
    have hl : readSlot s k = readSlot t k := h.readSlot_eq (by omega)
    have hr : readSlot s (k + 1) = readSlot t (k + 1) := h.readSlot_eq (by omega)
    rw [arith_eq_ok.2 ⟨k, h.spVal_eq ▸ hk, hlt, hr ▸ hz, rfl⟩, ← hl, ← hr]
    have habc := ((h.writeReg (r := .a) (v := readSlot s (k + 1)) (by simp)).writeReg (r := .b) (v := readSlot s k)
      (by simp)).writeReg (r := .c) (v := resultOf sym (readSlot s k) (readSlot s (k + 1))) (by simp)
    exact .ok ((habc.storeTop _ (by omega) (by simp; omega)).emit _)

theorem agree_compareTopTwo (h : AgreeUpToTop s t) : AgreeResults (compareTopTwo s) (compareTopTwo t) := by
  cases hp : compareTopTwo s with
  | error c =>
    rw [compareTopTwo_eq_error, h.spVal_eq] at hp
    rw [compareTopTwo_eq_error.2 hp]
    exact .error c
  | ok u =>
    obtain ⟨k, hk, hlt, rfl⟩ := compareTopTwo_eq_ok.1 hp
    rw [compareTopTwo_eq_ok.2 ⟨k, h.spVal_eq ▸ hk, hlt, rfl⟩, ← h.readSlot_eq (by omega), ← h.readSlot_eq (by omega)]
    exact .ok (h.storeTop _ (by omega) (by omega))

theorem agree_takeBranch (h : AgreeUpToTop s t) (target : Word) :
    AgreeResults (takeBranch target s) (takeBranch target t) := by
  cases hp : takeBranch target s with
  | error c =>
    rw [takeBranch_eq_error, h.progLen_eq] at hp
    rw [takeBranch_eq_error.2 hp]
    exact .error c
  | ok u =>
    obtain ⟨hrange, rfl⟩ := takeBranch_eq_ok.1 hp
    rw [takeBranch_eq_ok.2 ⟨h.progLen_eq ▸ hrange, rfl⟩]
    exact .ok (h.writeReg (by simp)).setJumped

/-- Every instruction that does not write SP directly answers alike in states that agree up to the top of the stack. -/
theorem body_agree (h : AgreeUpToTop s t) {i : Instr} (hd : destination i ≠ some .sp) :
    AgreeResults (body i s) (body i t) := by
  cases i with
  | psh val => exact agree_push h val
  | gld rm => simpa only [body, h.readReg_eq] using agree_push h (readReg t rm)
  | pop => exact agree_discardTop h
  | add => exact agree_arith h .plus
  | mul => exact agree_arith h .times
  | div => exact agree_arith h .divide
  | sub => exact agree_arith h .minus
  | slt => exact agree_compareTopTwo h
  | gpt rm => exact agree_copyTop h fun hr => hd (congrArg some hr)
  | set rdst val => exact .ok (h.writeReg fun hr => absurd (congrArg some hr) hd)
  | mov rsrc rdst =>
    simp only [body, h.readReg_eq]
    exact .ok (h.writeReg fun hr => absurd (congrArg some hr) hd)
  | log rm =>
    simp only [body, h.readReg_eq]
    exact .ok (h.emit _)
  | hlt => exact .ok (h.emit _)
  | nop => exact .ok (h.emit _)
  | ifEq rm val target =>
    simp only [body, h.readReg_eq]
    split_ifs
    · exact agree_takeBranch h target
    · exact .ok h
  | ifNe rm val target =>
    simp only [body, h.readReg_eq]
    split_ifs
    · exact agree_takeBranch h target
    · exact .ok h

/-- What one of two agreeing states does in a step the other does too, and the states after it agree. -/
theorem agree_outcome {s' : State} (h : AgreeUpToTop s t) (hnd : NotDestination .sp s) (ho : StepOutcome s s') :
    ∃ t', StepOutcome t t' ∧ AgreeUpToTop s' t' := by
  cases ho with
  | terminal hs => exact ⟨_, .terminal (h.status_eq ▸ hs), h⟩
  | fetchFault hs hf => exact ⟨_, .fetchFault (h.status_eq ▸ hs) (h.fetch_eq ▸ hf), h.raise _ _⟩
  | exhausted hs hf => exact ⟨_, .exhausted (h.status_eq ▸ hs) (h.fetch_eq ▸ hf), h.exhaust⟩
  | @bodyFault i c hs hf hb =>
    have hres := body_agree h.clearJumped (hnd i ⟨hs, hf⟩)
    rw [hb] at hres
    generalize hbt : body i (clearJumped t) = r at hres
    cases hres
    exact ⟨_, .bodyFault (h.status_eq ▸ hs) (h.fetch_eq ▸ hf) hbt, h.raise _ _⟩
  | @completed i u hs hf hb =>
    have hres := body_agree h.clearJumped (hnd i ⟨hs, hf⟩)
    rw [hb] at hres
    generalize hbt : body i (clearJumped t) = r at hres
    cases hres with
    | ok hu => exact ⟨_, .completed (h.status_eq ▸ hs) (h.fetch_eq ▸ hf) hbt, (hu.advance _).statusStage _⟩

end

/-- Settles O53: the second state's step is the agreeing one, since a step has one outcome. -/
theorem slotsAboveTopUnobservable : Obligations.SlotsAboveTopUnobservable := by
  intro s1 s2 t1 t2 hagree hnd h1 h2
  obtain ⟨t', ho, ht⟩ := agree_outcome hagree hnd (step_outcome h1)
  rw [step_of_outcome ho] at h2
  cases h2
  exact ht

end Sys2Proof.Machine
end

section
/-! PROOFS. Reset (R24, R190): its values, the invariants at the start of a run, and the sound stack along a whole run. -/

namespace Sys2Proof.Machine

/-! ### The state after reset, field by field -/

section
variable (prog : List Word) (draw : Nat)

@[simp] theorem resetWith_regs : (State.resetWith prog draw).regs = RegFile.reset := rfl
@[simp] theorem resetWith_stack : (State.resetWith prog draw).stack = [] := rfl
@[simp] theorem resetWith_status : (State.resetWith prog draw).status = .running := rfl
@[simp] theorem resetWith_jumped : (State.resetWith prog draw).jumped = false := rfl
@[simp] theorem resetWith_fcause : (State.resetWith prog draw).fcause = none := rfl
@[simp] theorem resetWith_fop : (State.resetWith prog draw).fop = 0 := rfl
@[simp] theorem resetWith_fip : (State.resetWith prog draw).fip = 0 := rfl
@[simp] theorem spVal_resetWith : spVal (State.resetWith prog draw) = -1 :=
  show (-1 : Word).toInt = -1 by decide
@[simp] theorem ipVal_resetWith : ipVal (State.resetWith prog draw) = 0 :=
  show (0 : Word).toInt = 0 by decide

/-- Every register but SP is 0 after reset (R24). -/
theorem readReg_resetWith {r : Reg} (hr : r ≠ .sp) : readReg (State.resetWith prog draw) r = 0 := by
  cases r with
  | sp => exact absurd rfl hr
  | _ => rfl

/-- No slot has been written after reset (R24). -/
theorem not_written_resetWith (k : Nat) : ¬ Written (State.resetWith prog draw) k := by
  simp [Written, Memory.find]

/-- Every slot reads as the free value of the reset's draw (R24, D26). -/
theorem readSlot_resetWith (k : Nat) : readSlot (State.resetWith prog draw) k = Config.stackInit draw k := rfl

theorem machineInv_resetWith : MachineInv (State.resetWith prog draw) :=
  ⟨reset_stack_wf prog draw, faultRecordWf_of_clear (by simp) rfl rfl rfl, ⟨by simp, by simp⟩, by simp [JumpedWf]⟩

/-- The stack is empty after reset, so no slot has to be written. -/
theorem stackSound_resetWith : StackSound (State.resetWith prog draw) :=
  ⟨by simp [SpInRange], fun k hk => by rw [spVal_resetWith] at hk; omega⟩

end

/-- Settles O54. -/
theorem resetValuesAsTabled : Obligations.ResetValuesAsTabled := by
  intro prog s
  exact ⟨fun _ hr => readReg_resetWith _ _ hr, spVal_resetWith _ _, rfl, rfl, rfl, rfl, rfl, rfl, rfl,
    not_written_resetWith _ _, readSlot_resetWith _ _⟩

/-- Settles O48: `State.reset` and the reset input are one reset with a program and a draw. -/
theorem invariantHoldsAfterReset : Obligations.InvariantHoldsAfterReset :=
  ⟨machineInv_resetWith _ _, fun _ _ => machineInv_resetWith _ _⟩

/-- Settles O51: SP is −1 and IP is 0. -/
theorem stackAndIpInRangeAfterReset : Obligations.StackAndIpInRangeAfterReset := by
  intro prog s
  refine ⟨stackSound_resetWith _ _, fun hlen => ⟨hlen, ?_⟩⟩
  rw [resetInput, ipVal_resetWith]
  exact ⟨le_refl 0, Int.natCast_nonneg _⟩

/-! ### Along a run -/

/-- The induction along a run whose steps all start in states that meet a guard. -/
theorem Steps.induction_guarded {P guard : State → Prop}
    (hstep : ∀ s t, P s → guard s → step s = .next t → P t) {k : Nat} {s t : State} (h : Steps k s t) (h0 : P s)
    (hguard : ∀ j u, j < k → Steps j s u → guard u) : P t := by
  induction h with
  | zero => exact h0
  | more hs hn ih =>
    exact hstep _ _ (ih h0 fun j u hj => hguard j u (Nat.lt_succ_of_lt hj)) (hguard _ _ (Nat.lt_succ_self _) hs) hn

/-- Settles O52, by induction along the run from O51 with the step of O49. -/
theorem stackSoundAlongRuns : Obligations.StackSoundAlongRuns := by
  intro prog s k t hnd h
  exact h.induction_guarded stepKeepsStackSound (stackSound_resetWith _ _) hnd

end Sys2Proof.Machine
end

section
/-! PROOFS. The operand stack and the Program Store (R31, R32, R36, R41): access to one slot, the stack operations,
and what a step leaves of slots and program. -/

namespace Sys2Proof.Machine

/-! ### Frames of one write -/

/-- A register write keeps every other register (R11). -/
theorem sameRegsExcept_writeReg (r : Reg) (v : Word) (s : State) : SameRegsExcept [r] s (writeReg r v s) := by
  intro q hq
  have hne : q ≠ r := fun h => hq (List.mem_singleton.2 h)
  simp [hne]

/-- A slot write keeps every other slot (R18). -/
theorem sameSlotsExcept_writeSlot (k : Nat) (v : Word) (s : State) : SameSlotsExcept k s (writeSlot k v s) := by
  intro j hj
  simp [hj]

/-- SP reads as the integer put into it, where a word can hold that integer (R6, R7). -/
theorem spVal_writeReg_wrap {n : Int} (hlo : -2147483648 ≤ n) (hhi : n ≤ 2147483647) (s : State) :
    spVal (writeReg .sp (wrap n) s) = n := by
  rw [spVal_writeReg, if_pos rfl, toInt_wrap hlo hhi]

/-! ### One slot (R31) -/

theorem stackCheck_of_neg {i : Int} (h : i < 0) : stackCheck i = .error .stackUnderflow :=
  stackCheck_eq_error.2 (.inl ⟨h, rfl⟩)

theorem stackCheck_of_gt {i : Int} (h : 255 < i) : stackCheck i = .error .stackOverflow :=
  stackCheck_eq_error.2 (.inr ⟨h, rfl⟩)

/-- Settles O23, by the range of the index. -/
theorem slotAccessChecksIndexFirst : Obligations.SlotAccessChecksIndexFirst := by
  intro i v s
  refine ⟨fun h => ?below, fun h => ?above, fun k hk hle => ?inside⟩
  case below => exact ⟨memRead_eq_error.2 (stackCheck_of_neg h), memWrite_eq_error.2 (stackCheck_of_neg h)⟩
  case above => exact ⟨memRead_eq_error.2 (stackCheck_of_gt h), memWrite_eq_error.2 (stackCheck_of_gt h)⟩
  case inside =>
    have hlt : k < 256 := Nat.lt_succ_of_le hle
    have hback : memRead i (writeSlot k v s) = .ok v := memRead_eq_ok.2 ⟨k, hk, hlt, by simp⟩
    exact ⟨memRead_eq_ok.2 ⟨k, hk, hlt, rfl⟩, writeSlot k v s, memWrite_eq_ok.2 ⟨k, hk, hlt, rfl⟩, hback,
      sameSlotsExcept_writeSlot k v s, fun _ _ => rfl, rfl, rfl, rfl, rfl, rfl, rfl, rfl⟩

/-! ### The three stack operations (R32) -/

/-- After a push SP names the slot the word was stored in. -/
theorem spVal_pushed {k : Nat} (hk : k < 256) (v : Word) (s : State) :
    spVal (writeSlot k v (writeReg .sp (wrap k) s)) = k := by
  rw [spVal_writeSlot, spVal_writeReg_wrap (by omega) (by omega)]

/-- Settles O24: each operation by the range of the index it checks. -/
theorem stackOpsMoveSpAroundOneSlot : Obligations.StackOpsMoveSpAroundOneSlot := by
  intro v s
  refine ⟨fun k hk hle => ?push, fun h => ?pushFull, fun h => ?pushBelow, fun k hk hle => ?popPeek,
    fun h => ?popBelow, fun h => ?popAbove⟩
  case push =>
    have hlt : k < 256 := Nat.lt_succ_of_le hle
    exact ⟨_, push_eq_ok.2 ⟨k, hk, hlt, rfl⟩, spVal_pushed hlt v s, by simp, sameRegsExcept_writeReg .sp _ s,
      sameSlotsExcept_writeSlot k v (writeReg .sp (wrap k) s), rfl, rfl, rfl, rfl, rfl, rfl, rfl⟩
  case pushFull => exact push_eq_error.2 (stackCheck_of_gt (by omega))
  case pushBelow => exact push_eq_error.2 (stackCheck_of_neg (by omega))
  case popPeek =>
    have hlt : k < 256 := Nat.lt_succ_of_le hle
    exact ⟨peek_eq_ok.2 ⟨k, hk, hlt, rfl⟩, _, pop_eq_ok.2 ⟨k, hk, hlt, rfl, rfl⟩,
      spVal_writeReg_wrap (by omega) (by omega) s, sameRegsExcept_writeReg .sp _ s, fun _ => rfl,
      rfl, rfl, rfl, rfl, rfl, rfl, rfl⟩
  case popBelow => exact ⟨pop_eq_error.2 (stackCheck_of_neg h), peek_eq_error.2 (stackCheck_of_neg h)⟩
  case popAbove => exact ⟨pop_eq_error.2 (stackCheck_of_gt h), peek_eq_error.2 (stackCheck_of_gt h)⟩

/-- Settles O25: SP names the slot the push wrote, and every slot up to the old SP lies below it. -/
theorem popReturnsWhatPushStored : Obligations.PopReturnsWhatPushStored := by
  intro v s t h
  obtain ⟨k, hk, hlt, rfl⟩ := push_eq_ok.1 h
  have hsp := spVal_pushed hlt v s
  have htop : v = readSlot (writeSlot k v (writeReg .sp (wrap k) s)) k := by simp
  refine ⟨peek_eq_ok.2 ⟨k, hsp, hlt, htop⟩, _, pop_eq_ok.2 ⟨k, hsp, hlt, htop, rfl⟩, ?_, fun j hj => ?_⟩
  · rw [spVal_writeReg_wrap (by omega) (by omega)]
    omega
  · have hne : j ≠ k := by omega
    simp [hne]

/-! ### The slots after a step (R36) -/

/-- What a slot reads as depends on the storage and the draw alone. -/
theorem readSlot_congr {s t : State} (hst : t.stack = s.stack) (hdraw : t.draw = s.draw) (k : Nat) :
    readSlot t k = readSlot s k := by
  rw [readSlot, readSlot, hst, hdraw]

/-- An execute stage writes at most one slot, next to SP. -/
theorem body_slots {i : Instr} {s u : State} (hb : body i s = .ok u) :
    SameSlots s u ∨
      ∃ k : Nat, ((k : Int) = spVal s + 1 ∨ (k : Int) = spVal s - 1) ∧ k ≤ 255 ∧ SameSlotsExcept k s u := by
  have hframe := body_frame hb
  rcases hframe.stack with hst | ⟨k, v, hk, hlt, hst⟩
  · exact .inl (readSlot_congr hst hframe.draw)
  · refine .inr ⟨k, hk, Nat.le_of_lt_succ hlt, fun j hj => ?_⟩
    have hwrite : readSlot u j = readSlot (writeSlot k v s) j := readSlot_congr (s := writeSlot k v s) hst hframe.draw j
    exact hwrite.trans (sameSlotsExcept_writeSlot k v s j hj)

/-- Settles O44: only the execute stage of an instruction that completes writes a slot. -/
theorem stepWritesAtMostOneSlot : Obligations.StepWritesAtMostOneSlot := by
  intro s t h
  cases step_outcome h with
  | terminal => exact .inl fun _ => rfl
  | fetchFault => exact .inl fun _ => rfl
  | exhausted => exact .inl fun _ => rfl
  | bodyFault => exact .inl fun _ => rfl
  | completed _ _ hb => simpa [SameSlots, SameSlotsExcept] using body_slots hb

/-! ### The program along a run (R41) -/

theorem step_prog {s t : State} (h : step s = .next t) : t.prog = s.prog := by
  cases step_outcome h with
  | terminal => rfl
  | fetchFault => rfl
  | exhausted => rfl
  | bodyFault => rfl
  | completed _ _ hb => simpa using (body_frame hb).prog

/-- Settles O46, by the induction along the run: no step changes the program. -/
theorem programNeverChanges : Obligations.ProgramNeverChanges := by
  intro k s t h
  have hprog : t.prog = s.prog :=
    h.induction (P := fun u => u.prog = s.prog) (fun _ _ hu hn => (step_prog hn).trans hu) rfl
  exact ⟨congrArg List.length hprog, fun i => by rw [progRead, progRead, hprog]⟩

end Sys2Proof.Machine
end

section
/-! PROOFS. The decoder against the encoder (R50 to R60, R72): the two are inverse to each other, each decode check
rejects exactly its own sequences, and a step runs the words that stand at IP. -/

namespace Sys2Proof.Machine

/-! ### The operand words of an instruction (R51, R53) -/

theorem length_operandWords (i : Instr) : i.operandWords.length = width i.opcode := by cases i <;> rfl

/-- A register operand reads back from the word that names it, and an immediate from itself. -/
theorem decodeOperands_operandWords_append (i : Instr) (tail : List Word) :
    decodeOperands i.opcode ((i.operandWords ++ tail).getD 0 0) ((i.operandWords ++ tail).getD 1 0)
      ((i.operandWords ++ tail).getD 2 0) = .ok i := by
  cases i with
  | hlt | psh | pop | add | mul | div | sub | slt | nop => rfl
  | mov | set | log | ifEq | ifNe | gld | gpt =>
    simp [Instr.opcode, Instr.operandWords, decodeOperands, bind, Except.bind, pure, Except.pure]

/-- A register operand and what is decoded after it answer an instruction only where the word names a register. -/
theorem regOperand_bind_eq_ok {w : Word} {k : Reg → Except DecodeError Instr} {i : Instr} :
    (regOperand w >>= k) = .ok i ↔ ∃ r, w = regWord r ∧ k r = .ok i := by
  simp only [← regOperand_eq_ok]
  cases regOperand w <;> simp [bind, Except.bind]

/-- The operand words that decode to an instruction, `w 0`, `w 1` and `w 2` as far as the width goes, are its own. -/
theorem operandWords_of_decodeOperands {o : Opcode} {w : Nat → Word} {i : Instr}
    (h : decodeOperands o (w 0) (w 1) (w 2) = .ok i) : i.operandWords = (List.range (width o)).map w := by
  cases o with
  | hlt | psh | pop | add | mul | div | sub | slt | nop => cases h; rfl
  | mov =>
    obtain ⟨rsrc, h0, h⟩ := regOperand_bind_eq_ok.1 h
    obtain ⟨rdst, h1, h⟩ := regOperand_bind_eq_ok.1 h
    cases h
    simp [Instr.operandWords, width, List.range_succ, h0, h1]
  | set | log | ifEq | ifNe | gld | gpt =>
    obtain ⟨r, h0, h⟩ := regOperand_bind_eq_ok.1 h
    cases h
    simp [Instr.operandWords, width, List.range_succ, h0]

/-- Reading words by position reads a list off its front. -/
theorem map_getD_range {rest : List Word} {n : Nat} (hn : n ≤ rest.length) :
    (List.range n).map (rest.getD · 0) = rest.take n := by
  refine List.ext_getElem (by simpa using hn) fun k hk _ => ?_
  have hlt : k < rest.length := by
    simp only [List.length_map, List.length_range] at hk
    omega
  simp [hlt]

/-! ### The round trip (R50, R52) -/

theorem decode_opcodeWord_of_width_le {o : Opcode} {rest : List Word} (h : width o ≤ rest.length) :
    decode (opcodeWord o) rest = decodeOperands o (rest.getD 0 0) (rest.getD 1 0) (rest.getD 2 0) := by
  rw [decode, opcodeOf_opcodeWord]
  exact if_neg (Nat.not_lt.2 h)

theorem decode_encode_append (i : Instr) (tail : List Word) :
    decode (opcodeWord i.opcode) (i.operandWords ++ tail) = .ok i := by
  have hwidth : width i.opcode ≤ (i.operandWords ++ tail).length := by
    rw [List.length_append, length_operandWords]
    omega
  rw [decode_opcodeWord_of_width_le hwidth]
  exact decodeOperands_operandWords_append i tail

theorem encode_of_decode {op : Word} {rest : List Word} {i : Instr} (h : decode op rest = .ok i) :
    encode i = op :: rest.take (width i.opcode) := by
  rcases decode_cases op rest with ⟨-, hd⟩ | ⟨_, -, -, hd⟩ | ⟨o, -, hle, hd⟩
  · rw [hd] at h; cases h
  · rw [hd] at h; cases h
  · have hops : decodeOperands o (rest.getD 0 0) (rest.getD 1 0) (rest.getD 2 0) = .ok i := hd.symm.trans h
    rw [encode, ← opcodeWord_of_decode h, operandWords_of_decodeOperands (w := (rest.getD · 0)) hops,
      map_getD_range hle, opcode_of_decodeOperands hops]

/-- Settles O3: the instruction is its opcode word and operand words, and the decoder looks no further than these. -/
theorem decodeOfEncodeIsInstr : Obligations.DecodeOfEncodeIsInstr := by
  intro i rest
  exact ⟨opcodeWord i.opcode, i.operandWords, rfl, decode_encode_append i rest⟩

/-- Settles O4: the word decoded is the opcode word, and the words the decoder used are the operand words. -/
theorem encodeOfDecodeIsWords : Obligations.EncodeOfDecodeIsWords := fun _ _ _ => encode_of_decode

/-- Settles O6, by computing the decoder on each word sequence. -/
theorem writtenWordsDecode : Obligations.WrittenWordsDecode := by
  unfold Obligations.WrittenWordsDecode
  decide

/-! ### The three decode checks (R54, R57, R58, R60) -/

theorem opcodeWord_inj {o o' : Opcode} : opcodeWord o = opcodeWord o' ↔ o = o' := by
  rw [← opcodeOf_eq_some, opcodeOf_opcodeWord, Option.some.injEq]

theorem not_notRegister_regWord (r : Reg) : ¬ NotRegister (regWord r) := by
  rw [NotRegister, ← regOf_eq_none, regOf_regWord]
  simp

/-- A word names a register or is outside 0..11. -/
theorem notRegister_or_eq_regWord (w : Word) : NotRegister w ∨ ∃ r, w = regWord r := by
  cases h : regOf w with
  | none => exact .inl (regOf_eq_none.1 h)
  | some r => exact .inr ⟨r, regOf_eq_some.1 h⟩

theorem regOperand_of_notRegister {w : Word} (h : NotRegister w) : regOperand w = .error .invalidRegister :=
  regOperand_eq_error.2 ⟨regOf_eq_none.2 h, rfl⟩

/-- A register operand followed by what cannot be rejected is rejected for its own word alone. -/
theorem regOperand_bind_ok_eq_error {w : Word} {f : Reg → Instr} {e : DecodeError} :
    (do let r ← regOperand w; return f r) = .error e ↔ e = .invalidRegister ∧ NotRegister w := by
  rcases notRegister_or_eq_regWord w with hw | ⟨r, rfl⟩
  · simp only [regOperand_of_notRegister hw, bind, Except.bind, Except.error.injEq, hw, and_true, eq_comm]
  · simp only [regOperand_regWord, bind, Except.bind, pure, Except.pure, reduceCtorEq, not_notRegister_regWord,
      and_false]

/-- Once the operand words are there, only a word in a register position that names no register is rejected. -/
theorem decodeOperands_eq_error {o : Opcode} {w : Nat → Word} {e : DecodeError} :
    decodeOperands o (w 0) (w 1) (w 2) = .error e ↔
      e = .invalidRegister ∧ ∃ j ∈ registerPositions o, NotRegister (w (j - 1)) := by
  cases o with
  | hlt | psh | pop | add | mul | div | sub | slt | nop => simp [decodeOperands, registerPositions]
  | mov =>
    simp only [registerPositions, List.mem_cons, List.not_mem_nil, or_false, exists_eq_or_imp, exists_eq_left,
      Nat.sub_self, Nat.reduceSub]
    rcases notRegister_or_eq_regWord (w 0) with h0 | ⟨rsrc, h0⟩
    · simp [decodeOperands, regOperand_of_notRegister h0, bind, Except.bind, h0, eq_comm]
    · rw [decodeOperands, h0, regOperand_regWord, or_iff_right (not_notRegister_regWord rsrc)]
      exact regOperand_bind_ok_eq_error
  | set | log | ifEq | ifNe | gld | gpt =>
    simp only [registerPositions, List.mem_singleton, exists_eq_left]
    exact regOperand_bind_ok_eq_error

theorem registerPosition_lt_width {o : Opcode} {j : Nat} (h : j ∈ registerPositions o) : j - 1 < width o := by
  have hall : ∀ k ∈ registerPositions o, k - 1 < width o := by cases o <;> decide
  exact hall j h

/-- Reading operand words by position finds a register operand out of range where one stands (R54). -/
theorem exists_notRegister_getD_iff {o : Opcode} {rest : List Word} (h : width o ≤ rest.length) :
    (∃ j ∈ registerPositions o, NotRegister (rest.getD (j - 1) 0)) ↔
      ∃ j ∈ registerPositions o, ∃ w, rest[j - 1]? = some w ∧ NotRegister w := by
  refine exists_congr fun j => and_congr_right fun hj => ?_
  have hlt : j - 1 < rest.length := Nat.lt_of_lt_of_le (registerPosition_lt_width hj) h
  simp [hlt]

/-- Settles O5, check by check: each outcome of the decode stage is reached under its own condition, and the other two
conditions do not hold there. -/
theorem decodeRejectsExactly : Obligations.DecodeRejectsExactly := by
  intro op rest
  rw [← opcodeOf_eq_none]
  rcases decode_cases op rest with ⟨hnone, hd⟩ | ⟨o, ho, hlt, hd⟩ | ⟨o, ho, hle, hd⟩
  · have hno : ∀ o, op ≠ opcodeWord o := fun o h => by simp [opcodeOf_eq_some.2 h] at hnone
    simp [hd, hnone, hno]
  · obtain rfl := opcodeOf_eq_some.1 ho
    simp [hd, ho, opcodeWord_inj, hlt]
  · obtain rfl := opcodeOf_eq_some.1 ho
    have hrejects : ∀ e, decode (opcodeWord o) rest = .error e ↔
        e = .invalidRegister ∧ ∃ j ∈ registerPositions o, ∃ w, rest[j - 1]? = some w ∧ NotRegister w := by
      intro e
      rw [hd, ← exists_notRegister_getD_iff hle]
      exact decodeOperands_eq_error (w := (rest.getD · 0))
    simp [hrejects, ho, opcodeWord_inj, hle]

/-! ### The step at the words of an instruction (R71, R72, R80) -/

/-- The words of the program from index `i` on, by position. -/
theorem progRead_add {s : State} {i : Int} (hi : 0 ≤ i) (j : Nat) :
    progRead s (i + j) = (s.prog.drop i.toNat)[j]? := by
  have hnonneg : ¬ i + j < 0 := by omega
  have hindex : (i + j).toNat = i.toNat + j := by omega
  rw [progRead, if_neg hnonneg, hindex, List.getElem?_drop]

/-- Fetch finds an instruction where the program holds its words from IP on (R71, R72). -/
theorem fetch_of_encode_prefix {s : State} {i : Instr} (hip : 0 ≤ ipVal s)
    (h : encode i <+: s.prog.drop (ipVal s).toNat) : fetch s = .instr i := by
  obtain ⟨tail, htail⟩ := h
  have hop : progRead s (ipVal s) = some (opcodeWord i.opcode) := by
    have hread := progRead_add (s := s) hip 0
    rw [← htail] at hread
    simpa [encode] using hread
  have hrest : s.prog.drop ((ipVal s).toNat + 1) = i.operandWords ++ tail := by
    rw [← List.drop_drop, ← htail]
    rfl
  have hdecode : decode (opcodeWord i.opcode) (s.prog.drop ((ipVal s).toNat + 1)) = .ok i := by
    rw [hrest]
    exact decode_encode_append i tail
  simp [fetch, Int.not_lt.2 hip, hop, hdecode]

theorem step_of_fetch_instr {s : State} {i : Instr} (hs : s.status = .running) (hf : fetch s = .instr i) :
    step s = exec i s := by
  simp [step, hs, runningStep, hf]

/-- Settles O31: the words of `i` begin the program from IP on, so fetch finds `i` there. -/
theorem stepRunsEncodedWords : Obligations.StepRunsEncodedWords := by
  intro s i hs hip hwords
  have hprefix : encode i <+: s.prog.drop (ipVal s).toNat := by
    refine List.prefix_iff_getElem?.2 fun j hj => ?_
    rw [← progRead_add hip]
    exact hwords j _ (List.getElem?_eq_getElem hj)
  exact step_of_fetch_instr hs (fetch_of_encode_prefix hip hprefix)

end Sys2Proof.Machine
end

section
/-! PROOFS. The execution loop (R71, R72, R76, R80): what the fetch stage answers in each range of IP, the step that
follows it, and the rest of a run that has ended. -/

namespace Sys2Proof.Machine

/-! ### Fetch, one equation for each range of IP and each decoding (R71, R72) -/

section
variable {s : State}

theorem fetch_of_ipVal_neg (h : ipVal s < 0) : fetch s = .fault .outOfRangeJump noOpcode := if_pos h

theorem fetch_of_progLen_le (h : (progLen s : Int) ≤ ipVal s) : fetch s = .exhausted := by
  have hnonneg : ¬ ipVal s < 0 := by omega
  have hnone : progRead s (ipVal s) = none := progRead_eq_none.2 (.inr h)
  simp [fetch, hnonneg, hnone]

theorem exists_progRead_of_lt {i : Int} (h0 : 0 ≤ i) (hlt : i < progLen s) : ∃ w, progRead s i = some w := by
  refine Option.ne_none_iff_exists'.1 fun hnone => ?_
  have houtside := progRead_eq_none.1 hnone
  omega

theorem fetch_of_decode_error {op : Word} {e : DecodeError} (hop : progRead s (ipVal s) = some op)
    (hd : decode op (s.prog.drop ((ipVal s).toNat + 1)) = .error e) : fetch s = .fault (decodeCause e) op := by
  obtain ⟨h0, -⟩ := progRead_eq_some.1 hop
  simp [fetch, Int.not_lt.2 h0, hop, hd]

theorem fetch_of_decode_ok {op : Word} {i : Instr} (hop : progRead s (ipVal s) = some op)
    (hd : decode op (s.prog.drop ((ipVal s).toNat + 1)) = .ok i) : fetch s = .instr i := by
  obtain ⟨h0, -⟩ := progRead_eq_some.1 hop
  simp [fetch, Int.not_lt.2 h0, hop, hd]

end

/-! ### The step in `Running` (R71, R80) -/

/-- Settles O30: the decoding is what the fetch stage finds, and a fetched instruction is executed. -/
theorem stepRunsDecodedInstruction : Obligations.StepRunsDecodedInstruction :=
  fun _ _ _ hs hop hd => step_of_fetch_instr hs (fetch_of_decode_ok hop hd)

/-- Settles O29, range by range: what the fetch stage answers there decides the outcome of the step. -/
theorem fetchStageByIpRange : Obligations.FetchStageByIpRange := by
  intro s hs
  refine ⟨fun hneg => ?negative, fun hge => ?atEnd, fun h0 hlt => ?inside⟩
  case negative =>
    have hstep := step_of_outcome (.fetchFault hs (fetch_of_ipVal_neg hneg))
    exact ⟨_, hstep, raise_taken _ _ _⟩
  case atEnd =>
    have hstep := step_of_outcome (.exhausted hs (fetch_of_progLen_le hge))
    exact ⟨_, hstep, by simp [SameRegsExcept, SameSlots, SameRecord]⟩
  case inside =>
    obtain ⟨op, hop⟩ := exists_progRead_of_lt h0 hlt
    refine ⟨op, hop, ?_⟩
    cases hd : decode op (s.prog.drop ((ipVal s).toNat + 1)) with
    | error e => exact fetch_of_decode_error hop hd
    | ok i => exact fetch_of_decode_ok hop hd

/-! ### Terminal states (R76) -/

theorem eq_of_step_terminal {s t : State} (hs : Terminal s) (h : step s = .next t) : t = s := by
  have hstay : step s = .next s := step_of_outcome (.terminal hs)
  rw [hstay] at h
  cases h
  rfl

/-- Settles O36, by the induction along the run: each state of the run is its terminal start. -/
theorem terminalStatesNeverChange : Obligations.TerminalStatesNeverChange := by
  intro k s t hs h
  refine h.induction (P := fun u => u = s) ?_ rfl
  rintro _ v rfl hv
  exact eq_of_step_terminal hs hv

end Sys2Proof.Machine
end

section
/-! PROOFS. The stack instructions PSH and POP (R90, R91): what the common stages add to an execute stage that completes
or faults, each instruction by the range of SP, and the two in sequence. -/

namespace Sys2Proof.Machine

/-! ### What the common stages add to an execute stage (R74, R75, R171) -/

/-- The fault an execute stage finds is taken with the instruction's opcode word, and its writes are discarded. -/
theorem exec_takes_fault {i : Instr} {s : State} {c : FaultCause} (hb : body i (clearJumped s) = .error c) :
    ∃ t, exec i s = .next t ∧ FaultTaken c (opcodeWord i.opcode) s t :=
  ⟨_, exec_of_body_error hb, raise_taken c _ s⟩

/-- Of the registers, the common stages write IP and no other (R15, R74). -/
theorem sameRegsExcept_completed {rs : List Reg} {s u : State} (h : SameRegsExcept rs (clearJumped s) u) (o : Opcode) :
    SameRegsExcept (rs ++ [.ip]) s (statusStage o (advance o u)) := by
  intro r hr
  obtain ⟨hrs, hip⟩ : r ∉ rs ∧ r ≠ .ip := by simpa using hr
  simpa [hip] using h r hrs

/-- An instruction other than HLT that takes no branch and emits nothing is quiet (R20, R22, R75). -/
theorem quiet_completed {i : Instr} {s u : State} (hb : body i (clearJumped s) = .ok u) (hi : i ≠ .hlt)
    (hj : u.jumped = false) (hout : u.out = s.out) : Quiet s (statusStage i.opcode (advance i.opcode u)) := by
  have hframe := body_frame hb
  have hstatus : u.status = s.status := hframe.status
  have hrecord : SameRecord s u := ⟨hframe.fcause, hframe.fip, hframe.fop, hframe.prog⟩
  simpa [Quiet, SameRecord, opcode_eq_hlt, hi, hj, hout, hstatus] using hrecord

/-! ### PSH (R90) -/

/-- An opcode word with fewer words after it than its opcode takes is rejected (R58). -/
theorem rejectsTruncated_opcodeWord (o : Opcode) : RejectsTruncated (opcodeWord o) (width o) := by
  intro rest hlt
  obtain ⟨-, htruncated, -⟩ := decodeRejectsExactly (opcodeWord o) rest
  exact htruncated.2 ⟨o, rfl, hlt⟩

/-- Settles O7: the execute stage is one push, so the range of SP decides as it does for `push` (O24). -/
theorem pshPushesImmediate : Obligations.PshPushesImmediate := by
  intro val s
  obtain ⟨hpush, hfull, hbelow, -⟩ := stackOpsMoveSpAroundOneSlot val (clearJumped s)
  refine ⟨rfl, rejectsTruncated_opcodeWord .psh, fun k hk hle => ?completes, fun h => ?full, fun h => ?below⟩
  case completes =>
    obtain ⟨u, hu, hsp, hslot, hregs, hslots, hj, -, hout, -⟩ := hpush k hk hle
    have hb : body (.psh val) (clearJumped s) = .ok u := hu
    have hip : ipVal s + 1 + width .psh = ipVal s + 2 := by simp [width, add_assoc]
    exact ⟨_, exec_of_body_ok hb, (spVal_completed _ u).trans hsp, by simpa using hslot,
      hip ▸ readReg_ip_of_completed hb hj nofun, sameRegsExcept_completed hregs _,
      by simpa [SameSlotsExcept] using hslots, quiet_completed hb nofun hj hout⟩
  case full => exact exec_takes_fault (i := .psh val) (hfull h)
  case below => exact exec_takes_fault (i := .psh val) (hbelow h)

/-! ### POP (R91) -/

/-- Settles O8: the execute stage checks the slot at SP and lowers SP; it writes no slot. -/
theorem popDiscardsTop : Obligations.PopDiscardsTop := by
  intro s
  refine ⟨rfl, fun h0 hle => ?completes, fun h => ?below, fun h => ?above⟩
  case completes =>
    obtain ⟨k, hk⟩ := Int.eq_ofNat_of_zero_le h0
    have hb : body .pop (clearJumped s) = .ok (writeReg .sp (wrap ((k : Int) - 1)) (clearJumped s)) :=
      discardTop_eq_ok.2 ⟨k, hk, by omega, rfl⟩
    have hsp : spVal (writeReg .sp (wrap ((k : Int) - 1)) (clearJumped s)) = spVal s - 1 := by
      rw [spVal_writeReg_wrap (by omega) (by omega), hk]
    have hip : ipVal s + 1 + width .pop = ipVal s + 1 := by simp [width]
    exact ⟨_, exec_of_body_ok hb, (spVal_completed _ _).trans hsp, hip ▸ readReg_ip_of_completed hb rfl nofun,
      sameRegsExcept_completed (sameRegsExcept_writeReg .sp _ _) _, fun j => by simp, quiet_completed hb nofun rfl rfl⟩
  case below => exact exec_takes_fault (i := .pop) (discardTop_eq_error.2 (stackCheck_of_neg h))
  case above => exact exec_takes_fault (i := .pop) (discardTop_eq_error.2 (stackCheck_of_gt h))

/-! ### PSH and then POP (R90, R91) -/

/-- Settles O27, from O7 and O8: the one slot the PSH writes lies above the old SP, and the POP lowers SP back to it. -/
theorem pshThenPopRestoresDepth : Obligations.PshThenPopRestoresDepth := by
  intro val s hlo hhi
  obtain ⟨k, hk⟩ := Int.eq_ofNat_of_zero_le (show 0 ≤ spVal s + 1 by omega)
  obtain ⟨-, -, hpsh, -⟩ := pshPushesImmediate val s
  obtain ⟨t, hst, hspt, -, -, hregst, hslotst, -⟩ := hpsh k hk (by omega)
  obtain ⟨-, hpop, -⟩ := popDiscardsTop t
  obtain ⟨u, htu, hspu, -, hregsu, hslotsu, -⟩ := hpop (by omega) (by omega)
  have hsp : spVal u = spVal s := by omega
  refine ⟨t, u, hst, htu, hsp, fun r hr => ?regs, fun j hj => ?slots⟩
  case regs =>
    by_cases hrsp : r = .sp
    · subst hrsp
      exact word_ext hsp
    · have hother : r ∉ [Reg.sp, Reg.ip] := by simpa [hrsp] using hr
      exact (hregsu r hother).trans (hregst r hother)
  case slots =>
    have hne : j ≠ k := by omega
    exact (hslotsu j).trans (hslotst j hne)

end Sys2Proof.Machine
end

section
/-! PROOFS. The stack arithmetic ADD, MUL, DIV, SUB and the comparison SLT (R100 to R107): the sign of DIV's quotient,
the one pattern the four arithmetic instructions share, SLT beside it, and the pattern in terms of pop and push. -/

namespace Sys2Proof.Machine

/-! ### The quotient truncated toward zero (R107) -/

/-- Operands of like sign give a quotient that is not negative, operands of opposite signs one that is not positive. -/
theorem tdiv_neg_iff_opposite_signs (l r : Int) :
    l.tdiv r < 0 ↔ ((l < 0 ∧ 0 < r) ∨ (0 < l ∧ r < 0)) ∧ l.tdiv r ≠ 0 := by
  have hpos : 0 ≤ l → 0 ≤ r → 0 ≤ l.tdiv r := Int.tdiv_nonneg
  have hneg : l ≤ 0 → r ≤ 0 → 0 ≤ l.tdiv r := Int.tdiv_nonneg_of_nonpos_of_nonpos
  have hposNeg : 0 ≤ l → r ≤ 0 → l.tdiv r ≤ 0 := Int.tdiv_nonpos_of_nonneg_of_nonpos
  have hnegPos : 0 ≤ -l → 0 ≤ r → 0 ≤ -(l.tdiv r) := fun hl hr => Int.neg_tdiv l r ▸ Int.tdiv_nonneg hl hr
  omega

/-- Settles O2, with the truncated quotient of the words' values for `q`. -/
theorem divQuotientTruncatesTowardZero : Obligations.DivQuotientTruncatesTowardZero := by
  intro left right
  refine ⟨fun hne => ?quotient, fun hzero => arithResult_eq_error.2 ⟨rfl, hzero, rfl⟩⟩
  case quotient =>
    have hresult : arithResult .divide left right = .ok (wrap (left.toInt.tdiv right.toInt)) :=
      arithResult_eq_ok.2 ⟨fun _ => hne, rfl⟩
    exact ⟨_, hresult, Int.natAbs_tdiv _ _, tdiv_neg_iff_opposite_signs _ _⟩

/-! ### The execute stage of the four arithmetic instructions (R100) -/

/-- The instruction whose execute stage is `arith sym` (R101 to R104). -/
def arithInstr : ArithSym → Instr
  | .plus => .add
  | .times => .mul
  | .divide => .div
  | .minus => .sub

/-- The exact operation whose wrapped result `sym` computes (R101 to R104, R106). -/
def exactOp : ArithSym → Int → Int → Int
  | .plus, l, r => l + r
  | .times, l, r => l * r
  | .divide, l, r => l.tdiv r
  | .minus, l, r => l - r

theorem body_arithInstr (sym : ArithSym) (s : State) : body (arithInstr sym) s = arith sym s := by cases sym <;> rfl

theorem width_arithInstr (sym : ArithSym) : width (arithInstr sym).opcode = 0 := by cases sym <;> rfl

theorem destination_arithInstr (sym : ArithSym) : destination (arithInstr sym) = none := by cases sym <;> rfl

theorem arithInstr_ne_hlt (sym : ArithSym) : arithInstr sym ≠ .hlt := by cases sym <;> nofun

theorem resultOf_eq_wrap (sym : ArithSym) (left right : Word) :
    resultOf sym left right = wrap (exactOp sym left.toInt right.toInt) := by cases sym <;> rfl

/-- What `arith sym` does with its operands in slots `k` and `k + 1`, and what it leaves as it was (R100). -/
structure ArithEffect (sym : ArithSym) (k : Nat) (s u : State) : Prop where
  a : readReg u .a = readSlot s (k + 1)
  b : readReg u .b = readSlot s k
  c : readReg u .c = resultOf sym (readSlot s k) (readSlot s (k + 1))
  sp : spVal u = k
  slot : readSlot u k = resultOf sym (readSlot s k) (readSlot s (k + 1))
  regs : SameRegsExcept [.a, .b, .c, .sp] s u
  slots : SameSlotsExcept k s u
  jumped : u.jumped = s.jumped
  out : u.out = s.out ++
    [.arith sym (readSlot s k) (readSlot s (k + 1)) (resultOf sym (readSlot s k) (readSlot s (k + 1)))]

theorem arith_effect {sym : ArithSym} {k : Nat} {s u : State} (h : arith sym s = .ok u) (hk : spVal s - 1 = k) :
    ArithEffect sym k s u := by
  obtain ⟨j, hj, hlt, -, rfl⟩ := arith_eq_ok.1 h
  obtain rfl : j = k := by omega
  exact {
    a := by simp
    b := by simp
    c := by simp
    sp := by rw [spVal_emit, spVal_pushed (by omega)]
    slot := by simp
    regs := fun r hr => by
      obtain ⟨ha, hb, hc, hsp⟩ : r ≠ .a ∧ r ≠ .b ∧ r ≠ .c ∧ r ≠ .sp := by simpa using hr
      simp [ha, hb, hc, hsp]
    slots := sameSlotsExcept_writeSlot j _ s
    jumped := rfl
    out := rfl }

/-! ### The common stages around it (R74, R75, R100) -/

/-- An instruction other than HLT that takes no branch and emits one event is quiet but for it (R20, R22, R75). -/
theorem quietBut_completed {i : Instr} {s u : State} {e : Event} (hb : body i (clearJumped s) = .ok u) (hi : i ≠ .hlt)
    (hj : u.jumped = false) (hout : u.out = s.out ++ [e]) :
    QuietBut e s (statusStage i.opcode (advance i.opcode u)) := by
  have hframe := body_frame hb
  have hstatus : u.status = s.status := hframe.status
  have hrecord : SameRecord s u := ⟨hframe.fcause, hframe.fip, hframe.fop, hframe.prog⟩
  simpa [QuietBut, SameRecord, opcode_eq_hlt, hi, hj, hout, hstatus] using hrecord

/-- IP after an instruction without operand words that takes no branch and names no destination (R74). -/
theorem readReg_ip_of_completed_bare {i : Instr} {s u : State} (hb : body i (clearJumped s) = .ok u)
    (hj : u.jumped = false) (hw : width i.opcode = 0) (hd : destination i = none) :
    readReg (statusStage i.opcode (advance i.opcode u)) .ip = wrap (ipVal s + 1) := by
  simpa [hw] using readReg_ip_of_completed hb hj (by simp [hd])

/-- The success clause of R100, for every operator; `guard` has to exclude the zero divisor of DIV and nothing else. -/
theorem arithCompletes (sym : ArithSym) {guard : Word → Prop} (hguard : sym = .divide → ∀ r, guard r → r ≠ 0) :
    ArithCompletes (arithInstr sym) sym (exactOp sym) guard := by
  intro s k hk hle hg
  obtain ⟨u, hu⟩ : ∃ u, arith sym (clearJumped s) = .ok u :=
    ⟨_, arith_eq_ok.2 ⟨k, eq_add_of_sub_eq hk, by omega, fun hd => hguard hd _ hg, rfl⟩⟩
  have hb : body (arithInstr sym) (clearJumped s) = .ok u := (body_arithInstr sym _).trans hu
  have he : ArithEffect sym k (clearJumped s) u := arith_effect hu hk
  refine ⟨_, exec_of_body_ok hb, ?_⟩
  rw [← resultOf_eq_wrap]
  exact ⟨by simpa using he.a, by simpa using he.b, by simpa using he.c, (spVal_completed _ u).trans he.sp,
    by simpa using he.slot,
    readReg_ip_of_completed_bare hb he.jumped (width_arithInstr sym) (destination_arithInstr sym),
    sameRegsExcept_completed he.regs _, by simpa [SameSlotsExcept] using he.slots,
    quietBut_completed hb (arithInstr_ne_hlt sym) he.jumped he.out⟩

/-! ### Faults (R100, R105) -/

/-- The stack comes before the divisor, so every cause but DIV's own is that of the two operands' slots. -/
theorem arith_eq_error_iff_topTwo {sym : ArithSym} {s : State} {c : FaultCause} (hc : c ≠ .divisionByZero) :
    arith sym s = .error c ↔ topTwo s = .error c := by
  rw [arith_eq_error, topTwo_eq_error]
  simp [hc]

/-- An instruction whose execute stage fails where its two operands are missing takes the two stack faults. -/
theorem twoOperandFaults_of_topTwo {i : Instr}
    (h : ∀ s c, c ≠ .divisionByZero → topTwo s = .error c → body i s = .error c) :
    TwoOperandFaults i (opcodeWord i.opcode) := by
  refine fun s => ⟨fun hlow => ?_, fun hhigh => ?_⟩
  · exact exec_takes_fault (h _ .stackUnderflow nofun (topTwo_eq_error.2 (.inl ⟨hlow, rfl⟩)))
  · exact exec_takes_fault (h _ .stackOverflow nofun (topTwo_eq_error.2 (.inr ⟨hhigh, rfl⟩)))

theorem arith_twoOperandFaults (sym : ArithSym) :
    TwoOperandFaults (arithInstr sym) (opcodeWord (arithInstr sym).opcode) :=
  twoOperandFaults_of_topTwo fun s _ hc h => (body_arithInstr sym s).trans ((arith_eq_error_iff_topTwo hc).2 h)

/-! ### ADD, MUL, DIV and SUB (R101 to R104) -/

/-- Settles O9: the pattern of R100 at the exact sum. -/
theorem addWrapsExactSum : Obligations.AddWrapsExactSum :=
  ⟨rfl, arithCompletes .plus nofun, arith_twoOperandFaults .plus⟩

/-- Settles O10: the pattern of R100 at the exact product. -/
theorem mulWrapsExactProduct : Obligations.MulWrapsExactProduct :=
  ⟨rfl, arithCompletes .times nofun, arith_twoOperandFaults .times⟩

/-- Settles O11: the pattern of R100 at the truncated quotient; with two elements there, a zero divisor faults. -/
theorem divWrapsTruncatedQuotient : Obligations.DivWrapsTruncatedQuotient := by
  refine ⟨rfl, arithCompletes .divide fun _ _ h => h, arith_twoOperandFaults .divide, fun s k hk h1 hle hzero => ?_⟩
  obtain ⟨j, rfl⟩ := Nat.exists_eq_add_of_le' h1
  exact exec_takes_fault (i := .div) (arith_eq_error.2 (.inr (.inr ⟨j, hk, hle, hzero, rfl, rfl⟩)))

/-- Settles O12: the pattern of R100 at the exact difference. -/
theorem subWrapsExactDifference : Obligations.SubWrapsExactDifference :=
  ⟨rfl, arithCompletes .minus nofun, arith_twoOperandFaults .minus⟩

/-! ### SLT (R105) -/

/-- Settles O13: the execute stage lowers SP and writes the comparison into the slot SP then names. -/
theorem sltComparesSigned : Obligations.SltComparesSigned := by
  refine ⟨rfl, twoOperandFaults_of_topTwo (i := .slt) fun s c _ h => ?faults, fun s k hk hle => ?completes⟩
  case faults => exact compareTopTwo_eq_error.2 (topTwo_eq_error.1 h)
  case completes =>
    have hb : body .slt (clearJumped s) = .ok (writeSlot k (sltWords (readSlot s k) (readSlot s (k + 1)))
        (writeReg .sp (wrap k) (clearJumped s))) :=
      compareTopTwo_eq_ok.2 ⟨k, eq_add_of_sub_eq hk, hle, rfl⟩
    have hregs : SameRegsExcept [.sp] (clearJumped s) (writeReg .sp (wrap k) (clearJumped s)) :=
      sameRegsExcept_writeReg .sp _ _
    exact ⟨_, exec_of_body_ok hb, (spVal_completed _ _).trans (spVal_pushed (by omega) _ _), by simp [sltWords],
      readReg_ip_of_completed_bare hb rfl rfl rfl,
      sameRegsExcept_completed (u := writeSlot k _ (writeReg .sp (wrap k) (clearJumped s))) hregs _,
      fun j hj => by simp [hj], quiet_completed hb nofun rfl rfl⟩

/-! ### The pattern as two pops and a push (R32, R100) -/

/-- After a pop SP is one lower, below 0 included. -/
theorem spVal_of_pop {s t : State} {v : Word} (h : pop s = .ok (v, t)) : spVal t = spVal s - 1 := by
  obtain ⟨k, hk, hlt, -, rfl⟩ := pop_eq_ok.1 h
  rw [spVal_writeReg_wrap (by omega) (by omega), hk]

/-- Where two pops answer, they answer the words of slots `k + 1` and `k`, and leave every slot as it was. -/
theorem two_pops_eq_ok {s s1 s2 : State} {right left : Word} (h1 : pop s = .ok (right, s1))
    (h2 : pop s1 = .ok (left, s2)) :
    ∃ k : Nat, spVal s - 1 = k ∧ right = readSlot s (k + 1) ∧ left = readSlot s k ∧ spVal s2 + 1 = k ∧
      SameSlots s s2 := by
  have hsp1 := spVal_of_pop h1
  have hsp2 := spVal_of_pop h2
  obtain ⟨j, hj, -, rfl, rfl⟩ := pop_eq_ok.1 h1
  obtain ⟨k, hk, -, rfl, rfl⟩ := pop_eq_ok.1 h2
  obtain rfl : j = k + 1 := by omega
  exact ⟨k, by omega, rfl, rfl, by omega, fun _ => rfl⟩

/-- The two operands are missing exactly where one of two pops in turn finds no slot. -/
theorem topTwo_eq_error_iff_pops {s : State} {c : FaultCause} :
    topTwo s = .error c ↔ pop s = .error c ∨ ∃ right s1, pop s = .ok (right, s1) ∧ pop s1 = .error c := by
  rw [topTwo_eq_error, pop_eq_error]
  constructor
  · rintro (⟨hlow, rfl⟩ | ⟨hhigh, rfl⟩)
    · by_cases hneg : spVal s < 0
      · exact .inl (stackCheck_of_neg hneg)
      · have hpop : pop s = .ok (readSlot s 0, writeReg .sp (wrap ((0 : Nat) - 1)) s) :=
          pop_eq_ok.2 ⟨0, by omega, by omega, rfl, rfl⟩
        have hsp := spVal_of_pop hpop
        exact .inr ⟨_, _, hpop, pop_eq_error.2 (stackCheck_of_neg (by omega))⟩
    · exact .inl (stackCheck_of_gt hhigh)
  · rintro (hfirst | ⟨right, s1, hpop, hsecond⟩)
    · rcases stackCheck_eq_error.1 hfirst with ⟨hneg, rfl⟩ | ⟨hhigh, rfl⟩
      · exact .inl ⟨by omega, rfl⟩
      · exact .inr ⟨hhigh, rfl⟩
    · have hsp := spVal_of_pop hpop
      rcases stackCheck_eq_error.1 (pop_eq_error.1 hsecond) with ⟨hneg, rfl⟩ | ⟨hhigh, rfl⟩
      · exact .inl ⟨by omega, rfl⟩
      · exact .inr ⟨by omega, rfl⟩

/-- Settles O26: both ways the result lands in the left operand's slot, the one SP names after two pops and a push. -/
theorem arithIsTwoPopsAndPush : Obligations.ArithIsTwoPopsAndPush := by
  intro sym s
  refine ⟨fun right left v s1 s2 s3 t hpop1 hpop2 hresult hpush h => ?effect, fun c hc => ?causes⟩
  case effect =>
    obtain ⟨k, hk, rfl, rfl, hsp2, hslots2⟩ := two_pops_eq_ok hpop1 hpop2
    obtain ⟨-, rfl⟩ := arithResult_eq_ok.1 hresult
    obtain ⟨m, hm, hlt, rfl⟩ := push_eq_ok.1 hpush
    obtain rfl : m = k := by omega
    have he := arith_effect h hk
    refine ⟨he.sp.trans (spVal_pushed hlt _ s2).symm, fun j => ?_, he.a, he.b, he.c⟩
    by_cases hj : j = m
    · subst hj
      simpa using he.slot
    · simpa [hj, hslots2 j] using he.slots j hj
  case causes => exact (arith_eq_error_iff_topTwo hc).trans topTwo_eq_error_iff_pops

end Sys2Proof.Machine
end

section
/-! PROOFS. The register instructions MOV, SET, GLD and GPT (R120 to R124): where the decoder rejects their register
words, the one way MOV, SET and GPT write their destination, and GLD as a PSH of the register's value. -/

namespace Sys2Proof.Machine

/-! ### Register words the decoder rejects (R54) -/

/-- With all operand words present, one in a register position that names no register is rejected (R54, R60). -/
theorem decode_rejects_register {o : Opcode} {rest : List Word} {j : Nat} {bad : Word} (hlen : width o ≤ rest.length)
    (hj : j ∈ registerPositions o) (hword : rest[j - 1]? = some bad) (hbad : NotRegister bad) :
    decode (opcodeWord o) rest = .error .invalidRegister := by
  obtain ⟨-, -, hregister⟩ := decodeRejectsExactly (opcodeWord o) rest
  exact hregister.2 ⟨o, rfl, hlen, j, hj, bad, hword, hbad⟩

/-- An opcode whose first operand word names a register rejects one that does not. -/
theorem rejectsRegister_opcodeWord {o : Opcode} {more : Nat} (hfirst : 1 ∈ registerPositions o)
    (hw : width o = more + 1) : RejectsRegister (opcodeWord o) more := fun _ _ hbad hmore =>
  decode_rejects_register (hw.trans_le (Nat.succ_le_succ hmore)) hfirst rfl hbad

/-! ### A write of the destination register (R120, R121, R123) -/

/-- An instruction whose execute stage only writes `v` to its destination completes. The advance comes after the write,
so a destination IP is moved past the instruction's `n` words from `v` (R74, R124). -/
theorem exec_writes_destination {i : Instr} {r : Reg} {v : Word} {s : State} {n : Int}
    (hb : body i (clearJumped s) = .ok (writeReg r v (clearJumped s))) (hd : destination i = some r)
    (hn : 1 + (width i.opcode : Int) = n) :
    ∃ t, exec i s = .next t ∧ readReg t r = (if r = .ip then wrap (v.toInt + n) else v) ∧
      (r ≠ .ip → readReg t .ip = wrap (ipVal s + n)) ∧ SameRegsExcept [r, .ip] s t ∧ SameSlots s t ∧ Quiet s t := by
  have hhlt : i ≠ .hlt := by rintro rfl; cases hd
  refine ⟨_, exec_of_body_ok hb, ?written, fun hr => ?ip, sameRegsExcept_completed (sameRegsExcept_writeReg r v _) _,
    fun k => by simp, quiet_completed hb hhlt rfl rfl⟩
  case written => by_cases hr : r = .ip <;> simp [hr, ← hn, add_assoc]
  case ip =>
    have hip := readReg_ip_of_completed hb rfl (by simpa [hd] using hr)
    rwa [add_assoc, hn] at hip

/-- Settles O14: the execute stage writes the source's value, read before the write, to the destination. -/
theorem movCopiesRegister : Obligations.MovCopiesRegister := by
  intro rsrc rdst s
  refine ⟨rfl, rejectsTruncated_opcodeWord .mov, rejectsRegister_opcodeWord (o := .mov) (by decide) rfl,
    fun good bad rest hbad => ?second, exec_writes_destination (i := .mov rsrc rdst) rfl rfl rfl⟩
  case second => exact decode_rejects_register (o := .mov) (j := 2) (by simp [width]) (by decide) rfl hbad

/-- Settles O15: the execute stage writes the immediate to the destination. -/
theorem setLoadsImmediate : Obligations.SetLoadsImmediate := fun rdst val _ =>
  ⟨rfl, rejectsTruncated_opcodeWord .set, rejectsRegister_opcodeWord (o := .set) (by decide) rfl,
    exec_writes_destination (i := .set rdst val) rfl rfl rfl⟩

/-- Settles O17, by the range of SP: with the slot there the execute stage writes its word to the destination, and
without it the read faults. -/
theorem gptCopiesTop : Obligations.GptCopiesTop := by
  intro rm s
  refine ⟨rfl, rejectsTruncated_opcodeWord .gpt, rejectsRegister_opcodeWord (o := .gpt) (by decide) rfl,
    fun k hk hle => ?completes, fun h => ?below, fun h => ?above⟩
  case completes =>
    have hb : body (.gpt rm) (clearJumped s) = .ok (writeReg rm (readSlot s k) (clearJumped s)) :=
      copyTop_eq_ok.2 ⟨k, hk, Nat.lt_succ_of_le hle, rfl⟩
    exact exec_writes_destination hb rfl rfl
  case below => exact exec_takes_fault (i := .gpt rm) (copyTop_eq_error.2 (stackCheck_of_neg h))
  case above => exact exec_takes_fault (i := .gpt rm) (copyTop_eq_error.2 (stackCheck_of_gt h))

/-! ### GLD (R122) -/

/-- Where the push succeeds, GLD does what PSH does with the register's value at the start of the step: the two
instructions have the same number of words, and only a fault records which of them it was. -/
theorem exec_gld_eq_exec_psh {rm : Reg} {s u : State} (h : push (readReg s rm) (clearJumped s) = .ok u) :
    exec (.gld rm) s = exec (.psh (readReg s rm)) s :=
  (exec_of_body_ok (i := .gld rm) h).trans (exec_of_body_ok (i := .psh (readReg s rm)) h).symm

/-- Settles O16: the push decides by the range of SP (O24), and a GLD that completes is a PSH that completes (O7). -/
theorem gldPushesRegister : Obligations.GldPushesRegister := by
  intro rm s
  obtain ⟨hpush, hfull, hbelow, -⟩ := stackOpsMoveSpAroundOneSlot (readReg s rm) (clearJumped s)
  refine ⟨rfl, rejectsTruncated_opcodeWord .gld, rejectsRegister_opcodeWord (o := .gld) (by decide) rfl,
    fun k hk hle => ?completes, fun h => ?full, fun h => ?below⟩
  case completes =>
    obtain ⟨u, hu, -⟩ := hpush k hk hle
    obtain ⟨-, -, hpsh, -⟩ := pshPushesImmediate (readReg s rm) s
    rw [exec_gld_eq_exec_psh hu]
    exact hpsh k hk hle
  case full => exact exec_takes_fault (i := .gld rm) (hfull h)
  case below => exact exec_takes_fault (i := .gld rm) (hbelow h)

/-! ### SET and then MOV (R120, R121) -/

/-- Settles O28, from O15 and O14: the MOV reads what the SET wrote, and keeps its source. -/
theorem setThenMovDeliversValue : Obligations.SetThenMovDeliversValue := by
  intro rm rn v s hrm hrn
  obtain ⟨-, -, -, t, hst, hset, -⟩ := setLoadsImmediate rm v s
  obtain ⟨-, -, -, -, u, htu, hmov, -, hregs, -⟩ := movCopiesRegister rm rn t
  rw [if_neg hrm] at hset
  rw [if_neg hrn, hset] at hmov
  refine ⟨t, u, hst, htu, hmov, ?source⟩
  case source =>
    by_cases hsame : rm = rn
    · exact hsame ▸ hmov
    · exact (hregs rm (by simp [hsame, hrm])).trans hset

end Sys2Proof.Machine
end

section
/-! PROOFS. The branches IF and IFN (R140 to R142): what the two rules say alike, of one branch and its condition; each
instruction as a case of it; and the two as complements of each other. -/

namespace Sys2Proof.Machine

/-! ### One branch (R140 to R142) -/

/-- What R140 and R141 say alike of an instruction `i` that branches to `target` when `cond` holds: IP takes a target
inside the program, a target outside it faults (R142), and without the condition the target plays no part (D14). -/
structure BranchesWhen (cond : Prop) (i : Instr) (target : Word) (s : State) : Prop where
  inside : cond → 0 ≤ target.toInt → target.toInt < progLen s →
    ∃ t, exec i s = .next t ∧ readReg t .ip = target ∧ t.jumped = true ∧
      SameRegsExcept [.ip] s t ∧ SameSlots s t ∧ t.status = s.status ∧ t.out = s.out ∧ SameRecord s t
  outside : cond → (target.toInt < 0 ∨ (progLen s : Int) ≤ target.toInt) →
    ∃ t, exec i s = .next t ∧ FaultTaken .outOfRangeJump (opcodeWord i.opcode) s t
  untaken : ¬ cond →
    ∃ t, exec i s = .next t ∧ readReg t .ip = wrap (ipVal s + 4) ∧
      SameRegsExcept [.ip] s t ∧ SameSlots s t ∧ Quiet s t

/-- The one register a completed jump writes is IP: with `J` set the advance stage leaves the target there (R74). -/
theorem exec_jumps {i : Instr} {target : Word} {s : State} (hi : i ≠ .hlt)
    (hb : body i (clearJumped s) = .ok (setJumped (writeReg .ip target (clearJumped s)))) :
    ∃ t, exec i s = .next t ∧ readReg t .ip = target ∧ t.jumped = true ∧
      SameRegsExcept [.ip] s t ∧ SameSlots s t ∧ t.status = s.status ∧ t.out = s.out ∧ SameRecord s t := by
  refine ⟨_, exec_of_body_ok hb, by simp, by simp, fun r hr => ?regs, fun k => by simp, ?status, by simp,
    by simp [SameRecord]⟩
  case regs =>
    have hip : r ≠ .ip := by simpa using hr
    simp [hip]
  case status => simp [opcode_eq_hlt, hi]

/-- Where the execute stage changes nothing, the advance past three operand words is all that happens (R74). -/
theorem exec_only_advances {i : Instr} {s : State} (hw : width i.opcode = 3)
    (hb : body i (clearJumped s) = .ok (clearJumped s)) :
    ∃ t, exec i s = .next t ∧ readReg t .ip = wrap (ipVal s + 4) ∧
      SameRegsExcept [.ip] s t ∧ SameSlots s t ∧ Quiet s t := by
  have hi : i ≠ .hlt := by rintro rfl; cases hw
  exact ⟨_, exec_of_body_ok hb, by simp [hw, add_assoc], sameRegsExcept_completed (rs := []) (fun _ _ => rfl) _,
    fun k => by simp, quiet_completed hb hi rfl rfl⟩

/-- An execute stage that is a conditional `takeBranch` branches as R140 to R142 say. -/
theorem branchesWhen_of_body {cond : Prop} [Decidable cond] {i : Instr} {target : Word} {s : State}
    (hw : width i.opcode = 3)
    (hb : body i (clearJumped s) = if cond then takeBranch target (clearJumped s) else .ok (clearJumped s)) :
    BranchesWhen cond i target s where
  inside hc h0 hlt := by
    have hi : i ≠ .hlt := by rintro rfl; cases hw
    rw [if_pos hc] at hb
    exact exec_jumps hi (hb.trans (takeBranch_eq_ok.2 ⟨⟨h0, hlt⟩, rfl⟩))
  outside hc hout := by
    have hnot : ¬ (0 ≤ target.toInt ∧ target.toInt < progLen s) := by omega
    rw [if_pos hc] at hb
    exact exec_takes_fault (hb.trans (takeBranch_eq_error.2 ⟨hnot, rfl⟩))
  untaken hc := exec_only_advances hw (hb.trans (if_neg hc))

/-! ### IF and IFN (R140, R141) -/

theorem ifEq_branchesWhen (rm : Reg) (val target : Word) (s : State) :
    BranchesWhen (readReg s rm = val) (.ifEq rm val target) target s := branchesWhen_of_body rfl rfl

theorem ifNe_branchesWhen (rm : Reg) (val target : Word) (s : State) :
    BranchesWhen (readReg s rm ≠ val) (.ifNe rm val target) target s := branchesWhen_of_body rfl rfl

/-- Settles O18: IF is the branch whose condition is that the register equals the immediate. -/
theorem ifBranchesOnEqual : Obligations.IfBranchesOnEqual := by
  intro rm val target s
  have hif := ifEq_branchesWhen rm val target s
  exact ⟨rfl, rejectsTruncated_opcodeWord .ifEq, rejectsRegister_opcodeWord (o := .ifEq) (by decide) rfl,
    hif.inside, hif.outside, hif.untaken⟩

/-- Settles O19: IFN is the branch with the negated condition, so by whether the register equals the immediate one of
the two instructions takes its branch and the other advances. -/
theorem ifnBranchesOnUnequal : Obligations.IfnBranchesOnUnequal := by
  intro rm val target s
  have hif := ifEq_branchesWhen rm val target s
  have hifn := ifNe_branchesWhen rm val target s
  refine ⟨rfl, rejectsTruncated_opcodeWord .ifNe, rejectsRegister_opcodeWord (o := .ifNe) (by decide) rfl,
    hifn.inside, hifn.outside, fun heq => hifn.untaken (not_not.2 heq), fun h0 hlt => ?jumps, fun hout => ?faults⟩
  case jumps =>
    by_cases heq : readReg s rm = val
    · obtain ⟨t, ht, -, htj, -⟩ := hif.inside heq h0 hlt
      obtain ⟨u, hu, -, -, -, huj, -⟩ := hifn.untaken (not_not.2 heq)
      exact ⟨t, u, ht, hu, by rw [htj, huj]; rfl⟩
    · obtain ⟨t, ht, -, -, -, htj, -⟩ := hif.untaken heq
      obtain ⟨u, hu, -, huj, -⟩ := hifn.inside heq h0 hlt
      exact ⟨t, u, ht, hu, by rw [htj, huj]; rfl⟩
  case faults =>
    by_cases heq : readReg s rm = val
    · obtain ⟨t, ht, hfault⟩ := hif.outside heq hout
      obtain ⟨u, hu, hip, -, -, hquiet⟩ := hifn.untaken (not_not.2 heq)
      exact ⟨t, u, ht, hu, .inl ⟨hfault, hip, hquiet⟩⟩
    · obtain ⟨t, ht, hip, -, -, hquiet⟩ := hif.untaken heq
      obtain ⟨u, hu, hfault⟩ := hifn.outside heq hout
      exact ⟨t, u, ht, hu, .inr ⟨hfault, hip, hquiet⟩⟩

end Sys2Proof.Machine
end

section
/-! PROOFS. The system instructions HLT, LOG and NOP (R150 to R152): each emits one event and advances, and HLT's status
stage halts besides. -/

namespace Sys2Proof.Machine

/-! ### An execute stage that only emits (R22, R74, R75) -/

/-- Where the execute stage emits `e` and does nothing else, the instruction completes in every state, IP is moved past
its `n` words, and the status stage alone tells HLT from the others. -/
theorem exec_only_emits {i : Instr} {e : Event} {s : State} {n : Int}
    (hb : body i (clearJumped s) = .ok (emit e (clearJumped s))) (hn : 1 + (width i.opcode : Int) = n) :
    ∃ t, exec i s = .next t ∧ readReg t .ip = wrap (ipVal s + n) ∧ SameRegsExcept [.ip] s t ∧ SameSlots s t ∧
      t.jumped = false ∧ t.status = (if i = .hlt then .halted else s.status) ∧ t.out = s.out ++ [e] ∧
      SameRecord s t := by
  have hregs : SameRegsExcept [] (clearJumped s) (emit e (clearJumped s)) := fun _ _ => rfl
  refine ⟨_, exec_of_body_ok hb, ?ip, sameRegsExcept_completed hregs _, fun k => by simp, by simp, ?status,
    by simp, by simp [SameRecord]⟩
  case ip => simp [← hn, add_assoc]
  case status => simp [opcode_eq_hlt]

/-! ### HLT, LOG and NOP (R150 to R152) -/

/-- Settles O20: HLT emits its notice, the advance stage moves IP past it (D15), and the status stage halts. -/
theorem hltHaltsWithNotice : Obligations.HltHaltsWithNotice := by
  intro s
  obtain ⟨t, ht, hip, hregs, hslots, hj, hstatus, hout, hrecord⟩ :=
    exec_only_emits (i := .hlt) (s := s) (n := 1) rfl rfl
  exact ⟨rfl, t, ht, by simpa using hstatus, hip, hout, hj, hregs, hslots, hrecord⟩

/-- Settles O21: the value LOG emits is read before the advance, so LOG of IP gives the start of the step (R151). -/
theorem logEmitsRegister : Obligations.LogEmitsRegister := by
  intro rm s
  obtain ⟨t, ht, hip, hregs, hslots, hj, hstatus, hout, hrecord⟩ :=
    exec_only_emits (i := .log rm) (e := .log (readReg s rm)) (s := s) (n := 2) rfl rfl
  exact ⟨rfl, rejectsTruncated_opcodeWord .log, rejectsRegister_opcodeWord (o := .log) (by decide) rfl,
    t, ht, hip, hregs, hslots, hj, by simpa using hstatus, hout, hrecord⟩

/-- Settles O22: NOP emits its notice and the advance stage moves IP past it. -/
theorem nopOnlyAdvances : Obligations.NopOnlyAdvances := by
  intro s
  obtain ⟨t, ht, hip, hregs, hslots, hj, hstatus, hout, hrecord⟩ :=
    exec_only_emits (i := .nop) (s := s) (n := 1) rfl rfl
  exact ⟨rfl, t, ht, hip, hregs, hslots, hj, by simpa using hstatus, hout, hrecord⟩

end Sys2Proof.Machine
end

section
/-! PROOFS. Faults (R160 to R172): what can make a step fault, said once; the three decode faults, each under its own
condition; and for every faulting step the record it leaves and the opcode words its cause can come with. -/

namespace Sys2Proof.Machine

/-- Settles O39, by computing the code of each cause. -/
theorem causeCodesAsTabled : Obligations.CauseCodesAsTabled :=
  ⟨rfl, rfl, rfl, rfl, rfl, rfl, rfl, rfl⟩

/-! ### The step has an outcome (R171, R181) -/

/-- The status, what fetch finds and what the execute stage answers decide which of the five outcomes a step has. -/
theorem exists_stepOutcome (s : State) : ∃ t, StepOutcome s t := by
  by_cases hs : s.status = .running
  · cases hf : fetch s with
    | fault c op => exact ⟨_, .fetchFault hs hf⟩
    | exhausted => exact ⟨_, .exhausted hs hf⟩
    | instr i =>
      cases hb : body i (clearJumped s) with
      | error c => exact ⟨_, .bodyFault hs hf hb⟩
      | ok u => exact ⟨_, .completed hs hf hb⟩
  · exact ⟨s, .terminal hs⟩

/-- Settles O35: every state has an outcome, and each outcome is a next state. -/
theorem stepIsTotal : Obligations.StepIsTotal := by
  intro s
  obtain ⟨t, ht⟩ := exists_stepOutcome s
  exact ⟨t, step_of_outcome ht⟩

/-! ### The decode faults (R162, R167, R168) -/

/-- The words of the program behind the one at IP, where the decode stage looks for operands (R72). -/
abbrev wordsAfterOpcode (s : State) : List Word := s.prog.drop ((ipVal s).toNat + 1)

theorem length_wordsAfterOpcode (s : State) : (wordsAfterOpcode s).length = progLen s - ((ipVal s).toNat + 1) :=
  List.length_drop

/-- Operand word `j`, counted from 1, is word `j` of the program behind IP (R51). -/
theorem wordsAfterOpcode_getElem? {s : State} {j : Nat} (h0 : 0 ≤ ipVal s) (hj : 0 < j) :
    (wordsAfterOpcode s)[j - 1]? = progRead s (ipVal s + j) := by
  have hindex : (ipVal s).toNat + 1 + (j - 1) = (ipVal s).toNat + j := by omega
  rw [progRead_add h0, List.getElem?_drop, List.getElem?_drop, hindex]

/-- A decode error is taken as its fault, with the word at IP as the opcode word (R72, R171). -/
theorem step_takes_decodeFault {s : State} {op : Word} {e : DecodeError} (hs : s.status = .running)
    (hop : progRead s (ipVal s) = some op) (hd : decode op (wordsAfterOpcode s) = .error e) :
    ∃ t, step s = .next t ∧ FaultTaken (decodeCause e) op s t :=
  ⟨_, step_of_outcome (.fetchFault hs (fetch_of_decode_error hop hd)), raise_taken _ _ _⟩

/-- Settles O32: the opcode check is the decoder's first. -/
theorem unknownOpcodeFaults : Obligations.UnknownOpcodeFaults := by
  intro s op hs hop hrange
  obtain ⟨hunknown, -, -⟩ := decodeRejectsExactly op (wordsAfterOpcode s)
  exact step_takes_decodeFault hs hop (hunknown.2 hrange)

/-- Settles O33: an operand past the end of the program leaves fewer words behind IP than the opcode's width. -/
theorem truncatedOperandFaults : Obligations.TruncatedOperandFaults := by
  intro s o hs hop hwidth hend
  obtain ⟨h0, -⟩ := progRead_eq_some.1 hop
  have hshort : (wordsAfterOpcode s).length < width o := by
    rw [length_wordsAfterOpcode]
    omega
  exact step_takes_decodeFault hs hop (rejectsTruncated_opcodeWord o _ hshort)

theorem registerPosition_pos {o : Opcode} {j : Nat} (h : j ∈ registerPositions o) : 0 < j := by
  have hall : ∀ k ∈ registerPositions o, 0 < k := by cases o <;> decide
  exact hall j h

/-- Settles O34: with all operand words behind IP, only the register check is left to reject. -/
theorem invalidRegisterFaults : Obligations.InvalidRegisterFaults := by
  intro s o j w hs hop hfits hj hw hbad
  obtain ⟨h0, -⟩ := progRead_eq_some.1 hop
  have hpresent : width o ≤ (wordsAfterOpcode s).length := by
    rw [length_wordsAfterOpcode]
    omega
  have hword : (wordsAfterOpcode s)[j - 1]? = some w :=
    (wordsAfterOpcode_getElem? h0 (registerPosition_pos hj)).trans hw
  obtain ⟨-, -, hinvalid⟩ := decodeRejectsExactly (opcodeWord o) (wordsAfterOpcode s)
  exact step_takes_decodeFault hs hop (hinvalid.2 ⟨o, rfl, hpresent, j, hj, w, hword, hbad⟩)

/-! ### What makes a step fault (R171) -/

/-- Where a fault of cause `c` with opcode word `op` comes from: one constructor for each stage that can raise one. -/
inductive FaultSource (s : State) : FaultCause → Word → Prop where
  /-- The fetch stage finds a negative IP, so no opcode word was fetched (R71). -/
  | fetchStage (hneg : ipVal s < 0) : FaultSource s .outOfRangeJump noOpcode
  /-- The decode stage rejects the words at IP (R72). -/
  | decodeStage {op : Word} {e : DecodeError} (hop : progRead s (ipVal s) = some op)
      (hd : decode op (wordsAfterOpcode s) = .error e) : FaultSource s (decodeCause e) op
  /-- The execute stage of the decoded instruction faults (R73, R77). -/
  | executeStage {i : Instr} {c : FaultCause} (hop : progRead s (ipVal s) = some (opcodeWord i.opcode))
      (hb : body i (clearJumped s) = .error c) : FaultSource s c (opcodeWord i.opcode)

theorem faultSource_of_fetch_fault {s : State} {c : FaultCause} {op : Word} (h : fetch s = .fault c op) :
    FaultSource s c op := by
  rcases fetch_cases s with ⟨hneg, hf⟩ | ⟨-, hf⟩ | ⟨_, hop, -, -, ⟨e, hd, hf⟩ | ⟨i, -, hf⟩⟩
  · rw [hf] at h; cases h; exact .fetchStage hneg
  · rw [hf] at h; cases h
  · rw [hf] at h; cases h; exact .decodeStage hop hd
  · rw [hf] at h; cases h

/-- The word at IP is the opcode word of the instruction that fetch finds (R72). -/
theorem progRead_of_fetch_instr {s : State} {i : Instr} (h : fetch s = .instr i) :
    progRead s (ipVal s) = some (opcodeWord i.opcode) := by
  rcases fetch_cases s with ⟨-, hf⟩ | ⟨-, hf⟩ | ⟨op, hop, -, -, ⟨e, -, hf⟩ | ⟨j, hd, hf⟩⟩
  · rw [hf] at h; cases h
  · rw [hf] at h; cases h
  · rw [hf] at h; cases h
  · rw [hf] at h; cases h
    rw [hop, opcodeWord_of_decode hd]

/-- A step from `Running` that ends in `Faulted` raised a fault of one of the three stages: every other outcome has
another status. -/
theorem faultSource_of_step_faulted {s t : State} (hs : s.status = .running) (h : step s = .next t)
    (ht : t.status = .faulted) : ∃ c op, FaultSource s c op ∧ t = raise c op s := by
  cases step_outcome h with
  | terminal hns => exact absurd hs hns
  | fetchFault _ hf => exact ⟨_, _, faultSource_of_fetch_fault hf, rfl⟩
  | exhausted => cases ht
  | bodyFault _ hf hb => exact ⟨_, _, .executeStage (progRead_of_fetch_instr hf) hb, rfl⟩
  | completed _ _ hb =>
    have hu := (body_frame hb).status.trans hs
    rw [statusStage_status, advance_status, hu] at ht
    split_ifs at ht

/-- The recorded opcode word is the word at IP, or −1 where IP is negative and none was fetched (R171, D28). -/
theorem FaultSource.opcode_word {s : State} {c : FaultCause} {op : Word} (h : FaultSource s c op) :
    (ipVal s < 0 ∧ op = wrap (-1)) ∨ progRead s (ipVal s) = some op := by
  cases h with
  | fetchStage hneg => exact .inl ⟨hneg, rfl⟩
  | decodeStage hop => exact .inr hop
  | executeStage hop => exact .inr hop

/-- Settles O37: the fault, whatever stage it comes from, is taken by `raise`. -/
theorem faultsArePrecise : Obligations.FaultsArePrecise := by
  intro s t hs h ht
  obtain ⟨c, op, hsource, rfl⟩ := faultSource_of_step_faulted hs h ht
  exact ⟨c, op, raise_taken c op s, hsource.opcode_word⟩

/-! ### Which opcode words a cause comes with (R160) -/

theorem fopPossible_truncatedOperand {o : Opcode} (h : 0 < width o) :
    fopPossible .truncatedOperand (opcodeWord o) := by
  rw [fopPossible, toInt_opcodeWord]
  revert h
  cases o <;> decide

theorem fopPossible_invalidRegister {o : Opcode} {j : Nat} (h : j ∈ registerPositions o) :
    fopPossible .invalidRegister (opcodeWord o) := by
  have hne : registerPositions o ≠ [] := List.ne_nil_of_mem h
  rw [fopPossible, toInt_opcodeWord]
  revert hne
  cases o <;> decide

/-- Each decode check rejects only opcode words of its row of R160. -/
theorem fopPossible_of_decode_error {op : Word} {rest : List Word} {e : DecodeError} (h : decode op rest = .error e) :
    fopPossible (decodeCause e) op := by
  obtain ⟨hunknown, htruncated, hinvalid⟩ := decodeRejectsExactly op rest
  cases e with
  | unknownOpcode =>
    have hrange := hunknown.1 h
    simp only [decodeCause, fopPossible]
    omega
  | truncatedOperand =>
    obtain ⟨o, rfl, hshort⟩ := htruncated.1 h
    exact fopPossible_truncatedOperand (by omega)
  | invalidRegister =>
    obtain ⟨o, rfl, -, j, hj, -⟩ := hinvalid.1 h
    exact fopPossible_invalidRegister hj

/-- The two rows of the stack causes in R160 are the same (R163, R164). -/
theorem fopPossible_of_stackCause {c : FaultCause} {o : Opcode} (hc : c = .stackUnderflow ∨ c = .stackOverflow)
    (ho : (opcodeNumber o : Int) ∈ ([1, 2, 3, 4, 5, 6, 7, 13, 14] : List Int)) : fopPossible c (opcodeWord o) := by
  rcases hc with rfl | rfl
  · rwa [fopPossible, toInt_opcodeWord]
  · rwa [fopPossible, toInt_opcodeWord]

/-- A slot check fails with one of the two stack causes (R31). -/
theorem stackCause_of_stackCheck {i : Int} {c : FaultCause} (h : stackCheck i = .error c) :
    c = .stackUnderflow ∨ c = .stackOverflow :=
  (stackCheck_eq_error.1 h).imp And.right And.right

/-- ADD, MUL, DIV and SUB find a stack cause, and DIV alone the zero divisor (R100, R165). -/
theorem fopPossible_of_arith_error {sym : ArithSym} {s : State} {c : FaultCause} (h : arith sym s = .error c) :
    fopPossible c (opcodeWord (arithInstr sym).opcode) := by
  have hstack : (opcodeNumber (arithInstr sym).opcode : Int) ∈ ([1, 2, 3, 4, 5, 6, 7, 13, 14] : List Int) := by
    cases sym <;> decide
  rcases arith_eq_error.1 h with ⟨-, hc⟩ | ⟨-, hc⟩ | ⟨-, -, -, -, rfl, rfl⟩
  · exact fopPossible_of_stackCause (.inl hc) hstack
  · exact fopPossible_of_stackCause (.inr hc) hstack
  · exact toInt_opcodeWord .div

/-- A taken branch faults only for its target, and only IF and IFN take branches (R142, R166). -/
theorem fopPossible_of_takeBranch_error {target : Word} {s : State} {c : FaultCause} {o : Opcode}
    (ho : o = .ifEq ∨ o = .ifNe) (h : takeBranch target s = .error c) : fopPossible c (opcodeWord o) := by
  obtain ⟨-, rfl⟩ := takeBranch_eq_error.1 h
  rw [fopPossible, toInt_opcodeWord]
  rcases ho with rfl | rfl <;> decide

/-- An execute stage faults only with a cause that R160 gives its instruction. -/
theorem fopPossible_of_body_error {i : Instr} {s : State} {c : FaultCause} (h : body i s = .error c) :
    fopPossible c (opcodeWord i.opcode) := by
  cases i with
  | psh | gld =>
    exact fopPossible_of_stackCause (stackCause_of_stackCheck (push_eq_error.1 h))
      (by simp [Instr.opcode, opcodeNumber])
  | pop => exact fopPossible_of_stackCause (stackCause_of_stackCheck (discardTop_eq_error.1 h)) (by decide)
  | gpt =>
    exact fopPossible_of_stackCause (stackCause_of_stackCheck (copyTop_eq_error.1 h))
      (by simp [Instr.opcode, opcodeNumber])
  | slt =>
    have hc := (compareTopTwo_eq_error.1 h).imp And.right And.right
    exact fopPossible_of_stackCause hc (by decide)
  | add => exact fopPossible_of_arith_error (sym := .plus) h
  | mul => exact fopPossible_of_arith_error (sym := .times) h
  | div => exact fopPossible_of_arith_error (sym := .divide) h
  | sub => exact fopPossible_of_arith_error (sym := .minus) h
  | ifEq rm val target =>
    simp only [body] at h
    split_ifs at h
    exact fopPossible_of_takeBranch_error (.inl rfl) h
  | ifNe rm val target =>
    simp only [body] at h
    split_ifs at h
    exact fopPossible_of_takeBranch_error (.inr rfl) h
  | hlt | mov | set | log | nop => cases h

/-- Each stage's faults keep to the table of R160. -/
theorem FaultSource.opcode_possible {s : State} {c : FaultCause} {op : Word} (h : FaultSource s c op) :
    fopPossible c op := by
  cases h with
  | fetchStage => rw [fopPossible]; decide
  | decodeStage _ hd => exact fopPossible_of_decode_error hd
  | executeStage _ hb => exact fopPossible_of_body_error hb

/-- Settles O38, by the stage that raised the fault. -/
theorem faultCauseMatchesOpcode : Obligations.FaultCauseMatchesOpcode := by
  intro s t hs h ht
  obtain ⟨c, op, hsource, rfl⟩ := faultSource_of_step_faulted hs h ht
  exact ⟨c, rfl, hsource.opcode_possible⟩

end Sys2Proof.Machine
end

section
/-! PROOFS. The output ports (R43, R196): what the status output carries, and when the debug read port answers. -/

namespace Sys2Proof.Machine

/-! ### The status output (R19, R196) -/

section
variable {s : State}

theorem statusOutput_of_running (h : s.status = .running) : statusOutput s = 0 := by rw [statusOutput, h]

theorem statusOutput_of_halted (h : s.status = .halted) : statusOutput s = 1 := by rw [statusOutput, h]

theorem statusOutput_of_exhausted (h : s.status = .exhausted) : statusOutput s = 2 := by rw [statusOutput, h]

theorem statusOutput_of_faulted (h : s.status = .faulted) : statusOutput s = 3 := by rw [statusOutput, h]

/-! ### The debug read port (R43, R196) -/

theorem debugReadReg_of_not_running (h : s.status ≠ .running) (r : Reg) : debugReadReg s r = some (readReg s r) :=
  if_neg h

/-- Out of `Running` only an index past the stack's capacity gets no answer. -/
theorem debugReadSlot_of_not_running (h : s.status ≠ .running) {k : Nat} (hk : k < Config.stackCap) :
    debugReadSlot s k = some (readSlot s k) :=
  if_neg (not_or.2 ⟨h, Nat.not_le.2 hk⟩)

end

/-- Settles O55, output by output; slot 255 is the last below the stack's capacity of 256. -/
theorem portsShowState : Obligations.PortsShowState := by
  intro s
  exact ⟨statusOutput_of_running, statusOutput_of_halted, statusOutput_of_exhausted, statusOutput_of_faulted, rfl,
    debugReadReg_of_not_running, fun h _ hk => debugReadSlot_of_not_running h (Nat.lt_succ_of_le hk)⟩

end Sys2Proof.Machine
end
